-- ==== Sys2Proof/Word.lean ====
section
/-! DEFINITION. Word.lean: the words the host and the command encoding are made of (spec/00_scope.md R8,
spec/20_memory.md R62, spec/30_encoding.md R80). Operand registers are no words: the spec reads and writes them as
naturals in [0, 2^W) (R10, R22), and so does the model (log 2). -/

namespace Sys2Proof

/-- One 32-bit word of the host interface, or one command word (R60, R80). -/
abbrev Word := BitVec 32

/-- The 9-bit word index the block decodes: byte-offset bits 10:2 (R62). -/
abbrev WordIndex := BitVec 9

/-- A 4-bit operand field of a command: D, S1 or S2 (R80, R81). -/
abbrev RegField := BitVec 4

end Sys2Proof
end

