-- ==== Sys2Proof/Syntax.lean ====
section
/-! DEFINITION. Syntax.lean: the seven commands of spec/30_encoding.md R84, one constructor for each row of
spec/opcode_table.json. Operands stand in the order of R88: D, S1, S2, the unused fields left out. An operand is the
4-bit field of the command word; WellFormed.lean says which values name a register. -/

namespace Sys2Proof

/-- The command set, revision 1 (R2, R84). -/
inductive Instr where
  /-- `MODMUL Fd, Fa, Fb`: modular multiplication (R110). -/
  | modmul (d s1 s2 : RegField)
  /-- `MODPOW Fd, Fbase, Fexp`: modular exponentiation (R111). -/
  | modpow (d s1 s2 : RegField)
  /-- `MODINV Fd, Fa`: Fermat modular inverse (R112). -/
  | modinv (d s1 : RegField)
  /-- `PDBL Pd, Ps`: point doubling (R140). -/
  | pdbl (d s1 : RegField)
  /-- `PADD Pd, Pself, Pother`: point addition (R141). -/
  | padd (d s1 s2 : RegField)
  /-- `PMUL Pd, Ps, Fk`: scalar multiplication (R170). -/
  | pmul (d s1 s2 : RegField)
  /-- `PVERIFY Ps`: curve membership (R171). -/
  | pverify (s1 : RegField)
  deriving DecidableEq, Repr

end Sys2Proof
end

