-- ==== Sys2Proof/WellFormed.lean ====
section
/-! DEFINITION. WellFormed.lean: which operand fields name a register (spec/30_encoding.md R81). All 16 values of a
field of kind f are legal; a field of kind p must have bit 3 clear. -/

namespace Sys2Proof

/-- A point field names one of P0 to P7: its bit 3 is 0 (R81, kind p). -/
def isPointField (n : RegField) : Bool := !n.getLsbD 3

/-- Every point operand of the command names a point register (R81, R84). -/
def Instr.wellFormed : Instr → Bool
  | .modmul _ _ _ => true
  | .modpow _ _ _ => true
  | .modinv _ _ => true
  | .pdbl d s1 => isPointField d && isPointField s1
  | .padd d s1 s2 => isPointField d && isPointField s1 && isPointField s2
  | .pmul d s1 _ => isPointField d && isPointField s1
  | .pverify s1 => isPointField s1

end Sys2Proof
end

