-- ==== Sys2Proof/Decode.lean ====
section
/-! DEFINITION. Decode.lean: the command format, its decoder, its encoder and the match/mask rows (spec/30_encoding.md
R80, R81, R84, R85, R86). Every 32-bit word either decodes to one command or is ILLEGAL for a named reason. -/

namespace Sys2Proof

/-! The five fields of a command word (R80). -/

/-- OPC, bits 7:0 (R80). -/
def opcField (w : Word) : BitVec 8 := w.extractLsb' 0 8

/-- D, bits 11:8 (R80). -/
def dField (w : Word) : RegField := w.extractLsb' 8 4

/-- S1, bits 15:12 (R80). -/
def s1Field (w : Word) : RegField := w.extractLsb' 12 4

/-- S2, bits 19:16 (R80). -/
def s2Field (w : Word) : RegField := w.extractLsb' 16 4

/-- RSV, bits 31:20 (R80). -/
def rsvField (w : Word) : BitVec 12 := w.extractLsb' 20 12

/-- Why a word is no command: the four conditions of R86. They all complete with ILLEGAL, so which one is named when
several hold is not visible (log 11). -/
inductive DecodeError where
  /-- R86 (a): OPC is reserved (R85). -/
  | reservedOpcode (opc : BitVec 8)
  /-- R86 (b): RSV is not 0. -/
  | reservedBits (rsv : BitVec 12)
  /-- R86 (c): a field of kind z is not 0. -/
  | unusedField
  /-- R86 (d): a field of kind p has bit 3 set. -/
  | pointIndex
  deriving DecidableEq, Repr

/-- R86 (c) and (d): the command stands if its unused fields are 0 and its point fields name point registers. -/
def checkFields (unused points : List RegField) (i : Instr) : Except DecodeError Instr :=
  if !unused.all (fun z => z == 0#4) then .error .unusedField
  else if !points.all isPointField then .error .pointIndex
  else .ok i

/-- The command a word stands for (R84), or the reason it is ILLEGAL (R86). -/
def decode (w : Word) : Except DecodeError Instr :=
  let d := dField w
  let s1 := s1Field w
  let s2 := s2Field w
  if rsvField w ≠ 0#12 then .error (.reservedBits (rsvField w))
  else if opcField w = 0x01#8 then .ok (.modmul d s1 s2)
  else if opcField w = 0x02#8 then .ok (.modpow d s1 s2)
  else if opcField w = 0x03#8 then checkFields [s2] [] (.modinv d s1)
  else if opcField w = 0x10#8 then checkFields [s2] [d, s1] (.pdbl d s1)
  else if opcField w = 0x11#8 then checkFields [] [d, s1, s2] (.padd d s1 s2)
  else if opcField w = 0x12#8 then checkFields [] [d, s1] (.pmul d s1 s2)
  else if opcField w = 0x13#8 then checkFields [d, s2] [s1] (.pverify s1)
  else .error (.reservedOpcode (opcField w))

/-- "The word equals `(S2 << 16) | (S1 << 12) | (D << 8) | OPC` with RSV = 0" (R80). -/
def commandWord (opc : BitVec 8) (d s1 s2 : RegField) : Word :=
  s2.setWidth 32 <<< 16 ||| s1.setWidth 32 <<< 12 ||| d.setWidth 32 <<< 8 ||| opc.setWidth 32

/-- The word of a command (R80, R84); an unused field is 0 (R81, kind z). -/
def encode : Instr → Word
  | .modmul d s1 s2 => commandWord 0x01#8 d s1 s2
  | .modpow d s1 s2 => commandWord 0x02#8 d s1 s2
  | .modinv d s1 => commandWord 0x03#8 d s1 0#4
  | .pdbl d s1 => commandWord 0x10#8 d s1 0#4
  | .padd d s1 s2 => commandWord 0x11#8 d s1 s2
  | .pmul d s1 s2 => commandWord 0x12#8 d s1 s2
  | .pverify s1 => commandWord 0x13#8 0#4 s1 0#4

/-! The second description the spec gives of the same map: match/mask pairs. -/

/-- One row of R84's match/mask table. -/
structure OpcodeRow where
  mnemonic : String
  mask : Word
  value : Word
  deriving DecidableEq, Repr

/-- The match/mask pairs of R84. -/
def opcodeRows : List OpcodeRow := [
  ⟨"MODMUL", 0xFFF000FF#32, 0x00000001#32⟩,
  ⟨"MODPOW", 0xFFF000FF#32, 0x00000002#32⟩,
  ⟨"MODINV", 0xFFFF00FF#32, 0x00000003#32⟩,
  ⟨"PDBL", 0xFFFF88FF#32, 0x00000010#32⟩,
  ⟨"PADD", 0xFFF888FF#32, 0x00000011#32⟩,
  ⟨"PMUL", 0xFFF088FF#32, 0x00000012#32⟩,
  ⟨"PVERIFY", 0xFFFF8FFF#32, 0x00000013#32⟩]

/-- "A word w selects the command when `(w & mask) == match`" (R84). -/
def OpcodeRow.selects (r : OpcodeRow) (w : Word) : Bool := w &&& r.mask == r.value

/-- The row of R84 a command belongs to. -/
def Instr.mnemonic : Instr → String
  | .modmul _ _ _ => "MODMUL"
  | .modpow _ _ _ => "MODPOW"
  | .modinv _ _ => "MODINV"
  | .pdbl _ _ => "PDBL"
  | .padd _ _ _ => "PADD"
  | .pmul _ _ _ => "PMUL"
  | .pverify _ => "PVERIFY"

/-- The command word whose bits are `w`, of which the table gives `nbits`; every bit above `nbits` is 0. -/
def tableWord (nbits w : Nat) : Word := BitVec.ofNat 32 (w % 2 ^ nbits)

/-- What the decoder reads from a word numbered as spec/opcode_table.json numbers its bits: the command is the one
32-bit word itself (R80, R87). -/
def decodeTableWord (nbits w : Nat) : Option Instr := (decode (tableWord nbits w)).toOption

end Sys2Proof
end

