-- ==== Sys2Proof/Machine/Arith.lean ====
section
/-! DEFINITION. Machine/Arith.lean: the modular arithmetic of spec/40_modular.md section 1, over unbounded naturals and
integers (spec/00_scope.md R9). -/

namespace Sys2Proof.Machine

/-- `x mod m` for an integer x: the r with 0 ≤ r < m and m dividing x − r, also for a negative x (R9). -/
def residue (x : Int) (m : Nat) : Nat := (x % (m : Int)).toNat

/-- The field multiplier (R101): the exact product, reduced. -/
def mulmod (x y m : Nat) : Nat := x * y % m

/-- The number of bits of e: how often the loops of R102 and R160 run (R182). -/
def bitLength (e : Nat) : Nat := if e = 0 then 0 else Nat.log2 e + 1

/-- The loop of R102. `v?` is the running square, none before the first iteration ("initialized lazily to base mod
modulus on the first iteration"); `acc` is the accumulator the rule calls a. -/
def powLoop (base m : Nat) : (fuel : Nat) → (v? : Option Nat) → (acc e : Nat) → Nat
  | 0, _, acc, _ => acc
  | fuel + 1, v?, acc, e =>
    if e = 0 then acc
    else
      let v := v?.getD (base % m)
      let acc' := if e % 2 = 1 then mulmod acc v m else acc
      powLoop base m fuel (some (mulmod v v m)) acc' (e / 2)

/-- Exponentiation (R102), least significant bit first; `powmod b 0 m = 1` also for m = 1 (90_conflicts.md C1). -/
def powmod (base e m : Nat) : Nat := powLoop base m (bitLength e) none 1 e

/-- The Fermat inverse (R103); its callers check m ≥ 2 and v mod m ≠ 0 first. -/
def invmod (v m : Nat) : Nat := powmod v (m - 2) m

end Sys2Proof.Machine
end

