-- ==== Sys2Proof/Config.lean ====
section
/-! DEFINITION. Config.lean: the parameters of spec/00_scope.md R5. W is a value, the build, that State carries and no
step changes; LAT is a free value; NF and NP are fixed. BASE, BUS_BYTE_LANES, IRQ_ROUTE and RESET_STYLE lie outside the
block (log 14). -/

namespace Sys2Proof

/-- The one build-time option, the operand width W: "a multiple of 32 with 32 ≤ W ≤ 512" (R5), so one to sixteen
words. Every value of the type is a legal build. -/
structure Build where
  wordsMinusOne : Fin 16
  deriving DecidableEq, Repr

/-- NW, the words of an operand register (R5). -/
def Build.nw (b : Build) : Nat := b.wordsMinusOne.val + 1

/-- W, the bits of an operand register (R5). -/
def Build.w (b : Build) : Nat := 32 * b.nw

namespace Config

/-- DESIGN CHOICE (log 1): the build of `State.reset` is the reference configuration, W = 256 (R5, R6). -/
def reference : Build := ⟨7⟩

/-- NF, the number of field registers (R5). -/
def numFieldRegs : Nat := 16

/-- NP, the number of point registers (R5). -/
def numPointRegs : Nat := 8

/-- The constant ID reads, ASCII "ECOP" (10_state.md R33). -/
def idWord : BitVec 32 := 0x45434F50#32

/-- FREE VALUE (log 3): LAT of R5 and R220, less the one clock every command takes. It may depend on the command and
its operands, and differ each time: `draw` counts the values taken so far. It has no body, so a claim holds whatever
the delays are. -/
opaque extraClocks (draw : Nat) (command : BitVec 32) (operands : List Nat) : Nat

end Config

end Sys2Proof
end

