-- ==== Sys2Proof/Machine/State.lean ====
section
/-! DEFINITION. State.lean: everything the spec gives the block (spec/10_state.md), the model's own record of what is
outside the block, the reset state (spec/70_reset_and_hazards.md R210), and the ways a step can stop (none). -/

namespace Sys2Proof.Machine

/-- The operand storage: what the engine's snapshot copies (10_state.md R35). -/
structure Regs where
  /-- F0..F15, each a natural in [0, 2^W) (R22; log 2). -/
  f : Vector Nat 16
  /-- The modulus M (R24). -/
  m : Nat
  /-- The curve coefficient A (R24). -/
  a : Nat
  /-- The curve coefficient B (R24). -/
  b : Nat
  /-- PINF: bit n is the infinity flag of point register Pn (R23, R30). -/
  pinf : BitVec 8
  deriving DecidableEq, Repr

/-- The fields of STATUS (R26); its other bits read 0. -/
structure Status where
  /-- Bit 0: a command is accepted and not completed. -/
  busy : Bool
  /-- Bit 1, W1C: a command has completed. -/
  done : Bool
  /-- Bit 2: the result of the last PVERIFY that completed without error. -/
  valid : Bool
  /-- Bit 3, W1C, sticky: a host write was dropped. -/
  wdrop : Bool
  /-- Bits 11:8: the error code of the last completed command. -/
  err : BitVec 4
  deriving DecidableEq, Repr

/-- The command latch and the engine's progress (R35 items 1 and 2). -/
structure Latch where
  /-- The accepted command word. -/
  word : Word
  /-- The snapshot taken at acceptance of every source the command can read (60_exceptions.md R180). -/
  snap : Regs
  /-- The clocks the command still takes before the clock that completes it. The engine's working values are not
  held: no rule makes them visible, and the algorithm is the implementation's (log 9). -/
  remaining : Nat
  deriving DecidableEq, Repr

/-- One 32-bit access of the host (20_memory.md R60): it names a whole aligned word by its index, so a misaligned or
narrower access cannot be written (R62, R66). -/
inductive Access where
  | read (index : WordIndex)
  | write (index : WordIndex) (value : Word)
  deriving DecidableEq, Repr

/-- One coming event (20_memory.md R72; log 4). -/
inductive Input where
  /-- A clock without a host access. -/
  | clock
  /-- A host access, between two clocks of the engine. -/
  | access (a : Access)
  /-- A host access in the same clock as the engine's (60_exceptions.md R191; log 6). -/
  | accessInClock (a : Access)
  /-- The reset input is asserted (70_reset_and_hazards.md R210). -/
  | reset
  deriving DecidableEq, Repr

/-- What lies outside the block, held as plain data: the model's own fields, no registers. -/
structure Env where
  /-- The coming events, first first; when none is left, clocks pass (log 4). -/
  inputs : List Input
  /-- LAT less one of the coming commands, as far as already decided (log 3). -/
  latencies : List Nat
  /-- How many latencies the free value `Config.extraClocks` has given (log 3). -/
  draws : Nat
  /-- The word the latest host read returned (log 5). -/
  answer : Option Word
  deriving DecidableEq, Repr

/-- The block and what drives it. -/
structure State where
  /-- The build: W, which PARAM reads (R5, R34); no step changes it. -/
  build : Build
  /-- F, M, A, B and PINF. -/
  regs : Regs
  /-- CTRL.IE (R28); the other bits of CTRL read 0. -/
  ie : Bool
  /-- STATUS (R26). -/
  status : Status
  /-- The command latch, empty when no command is in the engine (R35). -/
  latch : Option Latch
  /-- The host's side (log 4). -/
  env : Env
  deriving DecidableEq, Repr

/-- The error codes a command can raise (60_exceptions.md R185). -/
inductive ErrCode where
  /-- The command word breaks 30_encoding.md R86. -/
  | illegal
  /-- M is outside the command's range. -/
  | modulus
  /-- A value with no inverse would be inverted. -/
  | noninv
  deriving DecidableEq, Repr

/-- A point value (00_scope.md R11): the point at infinity, or an affine point. -/
inductive Pt where
  | inf
  | aff (x y : Nat)
  deriving DecidableEq, Repr

/-- How a step can fault: it cannot, so there is no constructor. The block "never returns a bus error" (20_memory.md
R65), has no trap (60_exceptions.md R188), and completes every accepted word (R182). Safe: a claim about faults says
nothing. -/
inductive Fault where
  deriving DecidableEq, Repr

/-- How a step can be refused. -/
inductive Refusal where
  /-- Raised by an arm of `exec` whose instruction has no meaning yet; no arm is such an arm, so nothing raises it.
  Safe: it would stop where the block goes on. -/
  | notModelled (mnemonic : String)
  deriving DecidableEq, Repr

/-- The operand storage after reset (R210): F, M, A, B are 0, every point register is infinity. -/
def Regs.reset : Regs :=
  { f := Vector.replicate 16 0, m := 0, a := 0, b := 0, pinf := 0xFF#8 }

/-- STATUS after reset, 0x00000000 (R210). -/
def Status.reset : Status :=
  { busy := false, done := false, valid := false, wdrop := false, err := 0#4 }

/-- DESIGN CHOICE (logs 3, 4, 5): no event is scheduled, no latency decided, no read made. -/
def Env.reset : Env :=
  { inputs := [], latencies := [], draws := 0, answer := none }

/-- The reset state of a build (R210): "the engine is idle, and the command latch and working state are empty". -/
def State.resetFor (build : Build) : State :=
  { build, regs := Regs.reset, ie := false, status := Status.reset, latch := none, env := Env.reset }

/-- The machine right after reset, in the reference configuration W = 256 (log 1). -/
def State.reset : State := State.resetFor Config.reference

end Sys2Proof.Machine
end

