-- ==== Sys2Proof/Machine/Curve.lean ====
section
/-! DEFINITION. Machine/Curve.lean: the pure functions of spec/41_curve_point.md and spec/42_curve_context.md: `dbl`
(R132), `add` (R133), `smul` (R160) and `verify` (R161). Their callers check m > 3 first (R134). -/

namespace Sys2Proof.Machine

/-- The point of steps 4 and 5 of `dbl` and `add`: on the line of slope c through (x1, y1), whose other point has the
coordinate x2 (R132 with x2 = x1, R133). -/
def chordPoint (c x1 y1 x2 m : Nat) : Pt :=
  let x3 := residue ((c : Int) * c - x1 - x2) m
  .aff x3 (residue ((c : Int) * ((x1 : Int) - x3) - y1) m)

/-- Doubling (R132). -/
def dbl (p : Pt) (a m : Nat) : Except ErrCode Pt :=
  match p with
  | .inf => .ok .inf
  | .aff x y =>
    if y = 0 then .ok .inf
    else
      let d := 2 * y % m
      if d = 0 then .error .noninv
      else
        let num := (3 * x * x + a) % m
        let c := mulmod num (invmod d m) m
        .ok (chordPoint c x y x m)

/-- Addition (R133): p is self, q is other. -/
def add (p q : Pt) (a m : Nat) : Except ErrCode Pt :=
  match q, p with
  | .inf, p => .ok p
  | q, .inf => .ok q
  | .aff x2 y2, .aff x1 y1 =>
    if x1 = x2 then
      if y1 = y2 then dbl (.aff x1 y1) a m else .ok .inf
    else
      let num := residue ((y2 : Int) - y1) m
      let den := residue ((x2 : Int) - x1) m
      let c := mulmod num (invmod den m) m
      .ok (chordPoint c x1 y1 x2 m)

/-- The `while k > 0` loop of R160: double v, then add it to the result if the bit is 1. The first doubling or addition
that fails ends it (60_exceptions.md R187). -/
def smulLoop (a m : Nat) : (fuel : Nat) → (v result : Pt) → (k : Nat) → Except ErrCode Pt
  | 0, _, result, _ => .ok result
  | fuel + 1, v, result, k =>
    if k = 0 then .ok result
    else
      match dbl v a m with
      | .error e => .error e
      | .ok v' =>
        if k % 2 = 1 then
          match add result v' a m with
          | .error e => .error e
          | .ok result' => smulLoop a m fuel v' result' (k / 2)
        else smulLoop a m fuel v' result (k / 2)

/-- Scalar multiplication (R160), right-to-left double-and-add. -/
def smul (k : Nat) (p : Pt) (a m : Nat) : Except ErrCode Pt :=
  match p with
  | .inf => .ok .inf
  | .aff x y =>
    let first := if k % 2 = 1 then .aff x y else .inf
    smulLoop a m (bitLength (k / 2)) (.aff x y) first (k / 2)

/-- Curve membership (R161): infinity is on the curve (90_conflicts.md C3). -/
def verify (p : Pt) (a b m : Nat) : Bool :=
  match p with
  | .inf => true
  | .aff x y =>
    let lhs := powmod y 2 m
    let rhs := (powmod x 3 m + mulmod a x m + b) % m
    lhs == rhs

end Sys2Proof.Machine
end

