-- ==== Sys2Proof/Machine/Flags.lean ====
section
/-! DEFINITION. Machine/Flags.lean: the 32-bit words of STATUS, CTRL, PINF and PARAM (spec/10_state.md R26, R28, R30,
R34), the W1C write of STATUS, the error codes (spec/60_exceptions.md R185) and the interrupt line (R190). -/

namespace Sys2Proof.Machine

/-- The ERR value of an error (R185). -/
def ErrCode.code : ErrCode → BitVec 4
  | .illegal => 1#4
  | .modulus => 2#4
  | .noninv => 3#4

/-- A bit of a register as a word with that bit in position 0. -/
def bitWord (b : Bool) : Word := if b then 1#32 else 0#32

/-- The word STATUS reads, `BUSY | DONE<<1 | VALID<<2 | WDROP<<3 | ERR<<8` (R26; 95_test_vectors.md): the reserved bits
are 0. -/
def Status.toWord (st : Status) : Word :=
  bitWord st.busy ||| bitWord st.done <<< 1 ||| bitWord st.valid <<< 2 ||| bitWord st.wdrop <<< 3 |||
    st.err.setWidth 32 <<< 8

/-- A host write of STATUS (R26): bit 1 clears DONE, bit 3 clears WDROP, no other bit has an effect. -/
def Status.writeOneToClear (st : Status) (v : Word) : Status :=
  { st with done := st.done && !v.getLsbD 1, wdrop := st.wdrop && !v.getLsbD 3 }

/-- STATUS at acceptance (60_exceptions.md R180): BUSY ← 1, DONE ← 0; ERR and VALID keep their values. -/
def Status.accepted (st : Status) : Status := { st with busy := true, done := false }

/-- STATUS at a completion with the code `err` (60_exceptions.md R183, R184): ERR ← err, BUSY ← 0, DONE ← 1. -/
def Status.completed (st : Status) (err : BitVec 4) : Status :=
  { st with err := err, busy := false, done := true }

/-- The word CTRL reads (R28). -/
def ctrlWord (ie : Bool) : Word := bitWord ie

/-- The word PINF reads (R30). -/
def pinfWord (pinf : BitVec 8) : Word := pinf.setWidth 32

/-- The word PARAM reads (R34): W in bits 15:0, NF in bits 23:16, NP in bits 31:24. -/
def paramWord (b : Build) : Word :=
  BitVec.ofNat 32 b.w ||| BitVec.ofNat 32 Config.numFieldRegs <<< 16 ||| BitVec.ofNat 32 Config.numPointRegs <<< 24

/-- The level of the interrupt line, `STATUS.DONE AND CTRL.IE` (R190). -/
def State.irq (s : State) : Bool := s.status.done && s.ie

end Sys2Proof.Machine
end

