-- ==== Sys2Proof/Machine/Operands.lean ====
section
/-! DEFINITION. Machine/Operands.lean: the operand forms of spec/30_encoding.md R81 (field register, point register) and
the two views of spec/41_curve_point.md R130 and R131, over the operand storage. Commands read them in the snapshot and
write them in the live registers. -/

namespace Sys2Proof.Machine

/-- The register an operand field of kind f names: the 4-bit value i names F_i (R81). -/
def fieldIndex (i : RegField) : Fin 16 := ⟨i.toNat, i.isLt⟩

/-- The register an operand field of kind p names: the value n names Pn for n ≤ 7, and none otherwise (R81). -/
def pointIndex (n : RegField) : Option (Fin 8) :=
  if h : n.toNat < 8 then some ⟨n.toNat, h⟩ else none

/-- `F[i]` (00_scope.md R10). -/
def Regs.getF (r : Regs) (i : Fin 16) : Nat := r.f[i.val]

/-- `F[i] <- v` (R10). -/
def Regs.setF (r : Regs) (i : Fin 16) (v : Nat) : Regs := { r with f := r.f.set i.val v }

/-- `PINF[n]` (R10). -/
def Regs.getInf (r : Regs) (n : Fin 8) : Bool := r.pinf.getLsbD n.val

/-- `PINF[n] <- v` (R10); the other bits stay. -/
def Regs.setInf (r : Regs) (n : Fin 8) (v : Bool) : Regs :=
  let bit : BitVec 8 := 1#8 <<< n.val
  { r with pinf := if v then r.pinf ||| bit else r.pinf &&& ~~~bit }

/-- The x coordinate register of Pn, F[2n] (10_state.md R23). -/
def xIndex (n : Fin 8) : Fin 16 := ⟨2 * n.val, by omega⟩

/-- The y coordinate register of Pn, F[2n+1] (10_state.md R23). -/
def yIndex (n : Fin 8) : Fin 16 := ⟨2 * n.val + 1, by omega⟩

/-- `rdpt(n)` (R130): the coordinates of an affine point are reduced mod M, those of infinity are ignored. -/
def Regs.rdpt (r : Regs) (n : Fin 8) : Pt :=
  if r.getInf n then .inf
  else .aff (r.getF (xIndex n) % r.m) (r.getF (yIndex n) % r.m)

/-- `wrpt(n, P)` (R131): infinity is written as (0, 0) with its flag set. -/
def Regs.wrpt (r : Regs) (n : Fin 8) (p : Pt) : Regs :=
  match p with
  | .inf => ((r.setF (xIndex n) 0).setF (yIndex n) 0).setInf n true
  | .aff x y => ((r.setF (xIndex n) x).setF (yIndex n) y).setInf n false

end Sys2Proof.Machine
end

