-- ==== Sys2Proof/Machine/Ops.lean ====
section
/-! DEFINITION. Machine/Ops.lean: the operations on the whole state that every command shares: the life of a command
(spec/60_exceptions.md R180 to R184) with the error completion that stands for taking an exception (R184, R188), and what
stands for the return from one (R189); dropping a write (spec/70_reset_and_hazards.md R215); reset (R210, R211). -/

namespace Sys2Proof.Machine

/-- The values a command computes on: the snapshot of its acceptance (10_state.md R35). A command that is run without
having been latched, which no step does, computes on the live registers (log 10). -/
def State.sources (s : State) : Regs :=
  match s.latch with
  | some l => l.snap
  | none => s.regs

/-- Acceptance of the command word `c` (R180), with the delay it will take: the latch takes the word and the snapshot,
BUSY ← 1, DONE ← 0. -/
def State.acceptWith (s : State) (c : Word) (remaining : Nat) : State :=
  { s with latch := some { word := c, snap := s.regs, remaining }, status := s.status.accepted }

/-- The operands LAT may depend on (00_scope.md R5): every value the snapshot holds. -/
def Regs.latencyOperands (r : Regs) : List Nat := r.f.toList ++ [r.m, r.a, r.b, r.pinf.toNat]

/-- Acceptance (R180). The delay is the next decided one, or a free value (R220; log 3). -/
def State.accept (s : State) (c : Word) : State :=
  match s.env.latencies with
  | n :: rest => { s with env := { s.env with latencies := rest } }.acceptWith c n
  | [] =>
    { s with env := { s.env with draws := s.env.draws + 1 } }.acceptWith c
      (Config.extraClocks s.env.draws c s.regs.latencyOperands)

/-- Completion without error (R183): the destination writes, given as the registers and VALID after them, and in the
same event ERR ← 0, BUSY ← 0, DONE ← 1. The latch is empty again (log 8). -/
def State.commit (s : State) (regs : Regs) (valid : Bool) : State :=
  { s with regs, status := { s.status.completed 0#4 with valid }, latch := none }

/-- Error completion (R184), this hardware's taking of an exception (R188): ERR ← the code, BUSY ← 0, DONE ← 1; no
register, no PINF bit and not VALID is written. -/
def State.raise (s : State) (e : ErrCode) : State :=
  { s with status := s.status.completed e.code, latch := none }

/-- What stands for the return (R189): the host clears the bits it writes 1. Nothing else of the block changes. -/
def State.acknowledge (s : State) (v : Word) : State :=
  { s with status := s.status.writeOneToClear v }

/-- A host write that BUSY = 1 discards (70_reset_and_hazards.md R215): only WDROP ← 1. -/
def State.dropWrite (s : State) : State :=
  { s with status := { s.status with wdrop := true } }

/-- Completion of a command whose result is a field register (R110 to R112): the result, or its error. -/
def State.finishField (s : State) (d : RegField) (result : Except ErrCode Nat) : State :=
  match result with
  | .ok v => s.commit (s.regs.setF (fieldIndex d) v) s.status.valid
  | .error e => s.raise e

/-- Completion of a command whose result is a point register (R140, R141, R170): the result, or its error. -/
def State.finishPoint (s : State) (d : Fin 8) (result : Except ErrCode Pt) : State :=
  match result with
  | .ok p => s.commit (s.regs.wrpt d p) s.status.valid
  | .error e => s.raise e

/-- Completion of PVERIFY (R171): VALID takes the result, no register is written; or its error. -/
def State.finishVerify (s : State) (result : Except ErrCode Bool) : State :=
  match result with
  | .ok t => s.commit s.regs t
  | .error e => s.raise e

/-- Reset (R210, R211): the block's reset state, whatever it was doing. The build and the host's side stay (log 15). -/
def State.resetEvent (s : State) : State := { State.resetFor s.build with env := s.env }

end Sys2Proof.Machine
end

