-- ==== Sys2Proof/Machine/CurveContext.lean ====
section
/-! DEFINITION. Machine/CurveContext.lean: PMUL and PVERIFY (spec/42_curve_context.md section 2). An operand field that
names no point register completes with ILLEGAL (spec/30_encoding.md R86 (d), spec/60_exceptions.md R187; log 11). -/

namespace Sys2Proof.Machine

/-- PMUL (R170): the scalar is the full value of F[S2]; M > 3 is checked even for infinity or a zero scalar. -/
def pmulResult (r : Regs) (n : Fin 8) (s2 : RegField) : Except ErrCode Pt :=
  if r.m ≤ 3 then .error .modulus
  else smul (r.getF (fieldIndex s2)) (r.rdpt n) (r.a % r.m) r.m

/-- PVERIFY (R171). -/
def pverifyResult (r : Regs) (n : Fin 8) : Except ErrCode Bool :=
  if r.m ≤ 3 then .error .modulus
  else .ok (verify (r.rdpt n) (r.a % r.m) (r.b % r.m) r.m)

/-- `PMUL Pd, Ps, Fk` (R170). -/
def execPmul (d s1 s2 : RegField) (s : State) : Host.Outcome State Fault Refusal :=
  match pointIndex d, pointIndex s1 with
  | some pd, some ps => .next (s.finishPoint pd (pmulResult s.sources ps s2))
  | _, _ => .next (s.raise .illegal)

/-- `PVERIFY Ps` (R171). -/
def execPverify (s1 : RegField) (s : State) : Host.Outcome State Fault Refusal :=
  match pointIndex s1 with
  | some ps => .next (s.finishVerify (pverifyResult s.sources ps))
  | none => .next (s.raise .illegal)

end Sys2Proof.Machine
end

