-- ==== Sys2Proof/Machine/CurvePoint.lean ====
section
/-! DEFINITION. Machine/CurvePoint.lean: PDBL and PADD (spec/41_curve_point.md section 2). An operand field that names no
point register completes with ILLEGAL (spec/30_encoding.md R86 (d), spec/60_exceptions.md R187; log 11). -/

namespace Sys2Proof.Machine

/-- PDBL (R140): M > 3 is checked first (R134). -/
def pdblResult (r : Regs) (n : Fin 8) : Except ErrCode Pt :=
  if r.m ≤ 3 then .error .modulus else dbl (r.rdpt n) (r.a % r.m) r.m

/-- PADD (R141): the first source is self, the second is other. -/
def paddResult (r : Regs) (self other : Fin 8) : Except ErrCode Pt :=
  if r.m ≤ 3 then .error .modulus else add (r.rdpt self) (r.rdpt other) (r.a % r.m) r.m

/-- `PDBL Pd, Ps` (R140). -/
def execPdbl (d s1 : RegField) (s : State) : Host.Outcome State Fault Refusal :=
  match pointIndex d, pointIndex s1 with
  | some pd, some ps => .next (s.finishPoint pd (pdblResult s.sources ps))
  | _, _ => .next (s.raise .illegal)

/-- `PADD Pd, Pself, Pother` (R141). -/
def execPadd (d s1 s2 : RegField) (s : State) : Host.Outcome State Fault Refusal :=
  match pointIndex d, pointIndex s1, pointIndex s2 with
  | some pd, some self, some other => .next (s.finishPoint pd (paddResult s.sources self other))
  | _, _, _ => .next (s.raise .illegal)

end Sys2Proof.Machine
end

