-- ==== Sys2Proof/Machine/Modular.lean ====
section
/-! DEFINITION. Machine/Modular.lean: MODMUL, MODPOW and MODINV (spec/40_modular.md section 2). Each is the pure function of
its rule on the sources, and then the completion. -/

namespace Sys2Proof.Machine

/-- MODMUL (R110). -/
def modmulResult (r : Regs) (s1 s2 : RegField) : Except ErrCode Nat :=
  if r.m = 0 then .error .modulus
  else .ok (mulmod (r.getF (fieldIndex s1)) (r.getF (fieldIndex s2)) r.m)

/-- MODPOW (R111): the exponent is the full value of F[S2]. -/
def modpowResult (r : Regs) (s1 s2 : RegField) : Except ErrCode Nat :=
  if r.m = 0 then .error .modulus
  else .ok (powmod (r.getF (fieldIndex s1)) (r.getF (fieldIndex s2)) r.m)

/-- MODINV (R112): MODULUS before NONINV (60_exceptions.md R187). -/
def modinvResult (r : Regs) (s1 : RegField) : Except ErrCode Nat :=
  if r.m < 2 then .error .modulus
  else if r.getF (fieldIndex s1) % r.m = 0 then .error .noninv
  else .ok (invmod (r.getF (fieldIndex s1)) r.m)

/-- `MODMUL Fd, Fa, Fb` (R110). -/
def execModmul (d s1 s2 : RegField) (s : State) : Host.Outcome State Fault Refusal :=
  .next (s.finishField d (modmulResult s.sources s1 s2))

/-- `MODPOW Fd, Fbase, Fexp` (R111). -/
def execModpow (d s1 s2 : RegField) (s : State) : Host.Outcome State Fault Refusal :=
  .next (s.finishField d (modpowResult s.sources s1 s2))

/-- `MODINV Fd, Fa` (R112). -/
def execModinv (d s1 : RegField) (s : State) : Host.Outcome State Fault Refusal :=
  .next (s.finishField d (modinvResult s.sources s1))

end Sys2Proof.Machine
end

