-- ==== Sys2Proof/Machine/Dispatch.lean ====
section
/-! DEFINITION. Machine/Dispatch.lean: one arm for each command of spec/30_encoding.md R84. -/

namespace Sys2Proof.Machine

/-- The effect of a command's execution and completion (spec/60_exceptions.md R181 to R184). -/
def exec (i : Instr) (s : State) : Host.Outcome State Fault Refusal :=
  match i with
  | .modmul d s1 s2 => Sys2Proof.Machine.execModmul d s1 s2 s
  | .modpow d s1 s2 => Sys2Proof.Machine.execModpow d s1 s2 s
  | .modinv d s1 => Sys2Proof.Machine.execModinv d s1 s
  | .pdbl d s1 => Sys2Proof.Machine.execPdbl d s1 s
  | .padd d s1 s2 => Sys2Proof.Machine.execPadd d s1 s2 s
  | .pmul d s1 s2 => Sys2Proof.Machine.execPmul d s1 s2 s
  | .pverify s1 => Sys2Proof.Machine.execPverify s1 s

end Sys2Proof.Machine
end

