-- ==== Sys2Proof/Machine/Window.lean ====
section
/-! DEFINITION. Machine/Window.lean: the register window, the block's one address space (spec/20_memory.md): the address
map R61, the words of an operand register R63, the host's reads R65, R68, R216 and writes R215. -/

namespace Sys2Proof.Machine

/-- A register of W bits that the window holds word by word (R61). -/
inductive OperandReg where
  | m
  | a
  | b
  | f (i : Fin 16)
  deriving DecidableEq, Repr

/-- What an aligned word of the window is (R61). -/
inductive Loc where
  | id
  | param
  | ctrl
  | status
  | cmd
  | pinf
  | operand (r : OperandReg) (j : Nat)
  | reserved
  deriving DecidableEq, Repr

/-- The byte offset of a word index (R62). -/
def byteOffset (i : WordIndex) : Nat := 4 * i.toNat

/-- The word index of a byte offset of the window (R62). -/
def indexOf (offset : Nat) : WordIndex := BitVec.ofNat 9 (offset / 4)

/-- The register at a byte offset (R61); a slot has 16 words, whatever the build. -/
def locateOffset (o : Nat) : Loc :=
  if o = 0x000 then .id
  else if o = 0x004 then .param
  else if o = 0x008 then .ctrl
  else if o = 0x00C then .status
  else if o = 0x010 then .cmd
  else if o = 0x014 then .pinf
  else if o < 0x040 then .reserved
  else if o < 0x080 then .operand .m ((o - 0x040) / 4)
  else if o < 0x0C0 then .operand .a ((o - 0x080) / 4)
  else if o < 0x100 then .operand .b ((o - 0x0C0) / 4)
  else if o < 0x400 then .reserved
  else .operand (.f (Fin.ofNat 16 ((o - 0x400) / 0x40))) ((o - 0x400) % 0x40 / 4)

/-- The register a word index names in a build: words j ≥ NW of a slot are reserved (R61, R65). -/
def locate (b : Build) (i : WordIndex) : Loc :=
  match locateOffset (byteOffset i) with
  | .operand r j => if j < b.nw then .operand r j else .reserved
  | l => l

/-- Word j of a value: its bits 32j+31 : 32j (R63). -/
def wordOf (v j : Nat) : Word := BitVec.ofNat 32 (v / 2 ^ (32 * j))

/-- A value with its word j replaced (R63, R67): the words below and above it stay. -/
def replaceWord (v j : Nat) (x : Word) : Nat :=
  v % 2 ^ (32 * j) + x.toNat * 2 ^ (32 * j) + v / 2 ^ (32 * (j + 1)) * 2 ^ (32 * (j + 1))

/-- The value of an operand register. -/
def Regs.get (r : Regs) : OperandReg → Nat
  | .m => r.m
  | .a => r.a
  | .b => r.b
  | .f i => r.getF i

/-- The registers with one operand register replaced. PINF stays (10_state.md R23). -/
def Regs.set (r : Regs) (o : OperandReg) (v : Nat) : Regs :=
  match o with
  | .m => { r with m := v }
  | .a => { r with a := v }
  | .b => { r with b := v }
  | .f i => r.setF i v

/-- `MemRead`: the word the host reads at an index. It depends on no event but the latest write of the location
(R68, R72, 70_reset_and_hazards.md R216). -/
def State.readWord (s : State) (i : WordIndex) : Word :=
  match locate s.build i with
  | .id => Config.idWord
  | .param => paramWord s.build
  | .ctrl => ctrlWord s.ie
  | .status => s.status.toWord
  | .cmd => 0#32
  | .pinf => pinfWord s.regs.pinf
  | .operand r j => wordOf (s.regs.get r) j
  | .reserved => 0#32

/-- A host write that takes effect only while idle, and is dropped while busy (R215). -/
def State.writeWhenIdle (s idle : State) : State := if s.status.busy then s.dropWrite else idle

/-- `MemWrite`: the state after the host writes a word at an index (R65, R68, 10_state.md R26 to R34,
70_reset_and_hazards.md R215). A write of CMD while idle is the acceptance of a command (60_exceptions.md R180). -/
def State.writeWord (s : State) (i : WordIndex) (v : Word) : State :=
  match locate s.build i with
  | .id => s
  | .param => s
  | .ctrl => { s with ie := v.getLsbD 0 }
  | .status => s.acknowledge v
  | .cmd => s.writeWhenIdle (s.accept v)
  | .pinf => s.writeWhenIdle { s with regs := { s.regs with pinf := v.extractLsb' 0 8 } }
  | .operand r j => s.writeWhenIdle { s with regs := s.regs.set r (replaceWord (s.regs.get r) j v) }
  | .reserved => s

/-- One host access. A read changes nothing of the block (R68); the word it returns goes to the host (log 5). -/
def State.hostAccess (s : State) : Access → State
  | .read i => { s with env := { s.env with answer := some (s.readWord i) } }
  | .write i v => s.writeWord i v

end Sys2Proof.Machine
end

