-- ==== Sys2Proof/Machine/Engine.lean ====
section
/-! DEFINITION. Machine/Engine.lean: how the engine and the host take turns (spec/20_memory.md R71, R72): a clock of the
engine (spec/60_exceptions.md R181, R182), a host access, both in one clock (R191), and reset. -/

namespace Sys2Proof.Machine

/-- The latched command completes (R181): a word that is no command raises ILLEGAL, any other runs its rule. -/
def State.completeCommand (s : State) (c : Word) : Host.Outcome State Fault Refusal :=
  match decode c with
  | .ok i => exec i s
  | .error _ => .next (s.raise .illegal)

/-- One clock of the engine: an idle engine does nothing (R199); a command with clocks left counts one of them
(R220), and otherwise completes. -/
def State.clock (s : State) : Host.Outcome State Fault Refusal :=
  match s.latch with
  | none => .next s
  | some l =>
    match l.remaining with
    | 0 => s.completeCommand l.word
    | n + 1 => .next { s with latch := some { l with remaining := n } }

/-- A host access in the same clock as the engine's: the access, and then the clock of a command that was in the engine
before it, so that a completion wins over a W1C write of DONE (R191; log 6). -/
def State.accessInClock (s : State) (a : Access) : Host.Outcome State Fault Refusal :=
  match s.latch with
  | none => .next (s.hostAccess a)
  | some _ => (s.hostAccess a).clock

/-- One event (R72). -/
def State.applyInput (s : State) : Input → Host.Outcome State Fault Refusal
  | .clock => s.clock
  | .access a => .next (s.hostAccess a)
  | .accessInClock a => s.accessInClock a
  | .reset => .next s.resetEvent

/-- The state with the given coming events, and nothing else changed (log 4). -/
def State.withInputs (s : State) (es : List Input) : State := { s with env := { s.env with inputs := es } }

/-- The next event is taken from the coming ones; when there is none, a clock passes (log 4). -/
def State.nextEvent (s : State) : Host.Outcome State Fault Refusal :=
  match s.env.inputs with
  | [] => s.clock
  | e :: rest => (s.withInputs rest).applyInput e

/-- The state in which the command word `c` has just been accepted and takes one clock, which comes next. -/
def State.withCommand (s : State) (c : Word) : State :=
  (s.withInputs (.clock :: s.env.inputs)).acceptWith c 0

end Sys2Proof.Machine
end

