-- ==== Sys2Proof/Machine/Step.lean ====
section
/-! DEFINITION. Machine/Step.lean: one step of the machine, and how a command word is placed for the next step. -/

namespace Sys2Proof.Machine

/-- One step: the next event of the total order of spec/20_memory.md R72. -/
def step (s : State) : Host.Outcome State Fault Refusal := s.nextEvent

/-- The block has no program memory: a command is where the engine takes it from when it is in the command latch (log
7). This is `s` with the word accepted as 60_exceptions.md R180 says, and its completing clock next. -/
def State.withFetchWord (s : State) (nbits w : Nat) : State := s.withCommand (tableWord nbits w)

end Sys2Proof.Machine
end

