-- ==== Sys2Proof/Safety.lean ====
section
/-! DEFINITION. Safety.lean: what a sound state of the block is, what a completion leaves, and runs of steps: the terms the
claims are stated in. -/

namespace Sys2Proof.Machine

/-! ## Sound states -/

/-- Every operand register is in [0, 2^W) (spec/10_state.md R22, R24; log 2). -/
def Regs.InRange (r : Regs) (b : Build) : Prop :=
  (∀ i : Fin 16, r.getF i < 2 ^ b.w) ∧ r.m < 2 ^ b.w ∧ r.a < 2 ^ b.w ∧ r.b < 2 ^ b.w

/-- The invariant of the block: registers in range (R22, R24, R104); an error code that is produced (R185); BUSY exactly
while a command is latched (R26, R180, R183 say when BUSY is 1; that the latch is empty otherwise is the model's choice, log 8);
never BUSY and DONE together (R180, R183); and, while a command is latched, the registers still hold its snapshot (R215: the
operands are immutable for the duration of a command). -/
structure State.Inv (s : State) : Prop where
  inRange : s.regs.InRange s.build
  err_le : s.status.err.toNat ≤ 3
  /-- The latch is empty while BUSY = 0: log 8. -/
  busy_iff : s.status.busy = s.latch.isSome
  busy_not_done : s.status.busy = true → s.status.done = false
  snapshot : ∀ l, s.latch = some l → l.snap = s.regs

/-- A residue point (41_curve_point.md R130): infinity, or coordinates below m. -/
def Pt.Reduced (m : Nat) : Pt → Prop
  | .inf => True
  | .aff x y => x < m ∧ y < m

/-- The x coordinate a point is stored with: 0 for infinity (R131). -/
def Pt.storedX : Pt → Nat
  | .inf => 0
  | .aff x _ => x

/-- The y coordinate a point is stored with: 0 for infinity (R131). -/
def Pt.storedY : Pt → Nat
  | .inf => 0
  | .aff _ y => y

/-- The infinity flag a point is stored with (R131). -/
def Pt.isInf : Pt → Bool
  | .inf => true
  | .aff _ _ => false

/-! ## Commands as the spec's tables describe them -/

/-- The opcodes of 30_encoding.md R84. -/
def definedOpcodes : List (BitVec 8) := [0x01#8, 0x02#8, 0x03#8, 0x10#8, 0x11#8, 0x12#8, 0x13#8]

/-- The four conditions of 30_encoding.md R86, spelt for the operand kinds of R84. -/
def IllegalWord (w : Word) : Prop :=
  opcField w ∉ definedOpcodes ∨
  rsvField w ≠ 0#12 ∨
  (opcField w ∈ [0x03#8, 0x10#8, 0x13#8] ∧ s2Field w ≠ 0#4) ∨
  (opcField w = 0x13#8 ∧ dField w ≠ 0#4) ∨
  (opcField w ∈ [0x10#8, 0x11#8, 0x12#8] ∧ 8 ≤ (dField w).toNat) ∨
  (opcField w ∈ [0x10#8, 0x11#8, 0x12#8, 0x13#8] ∧ 8 ≤ (s1Field w).toNat) ∨
  (opcField w = 0x11#8 ∧ 8 ≤ (s2Field w).toNat)

/-- The least modulus a command runs with: below it, it raises MODULUS (60_exceptions.md R186). -/
def minModulus : Instr → Nat
  | .modmul _ _ _ => 1
  | .modpow _ _ _ => 1
  | .modinv _ _ => 2
  | .pdbl _ _ => 4
  | .padd _ _ _ => 4
  | .pmul _ _ _ => 4
  | .pverify _ => 4

/-- The byte offset of the slot of an operand register (20_memory.md R61). -/
def slotOffset : OperandReg → Nat
  | .m => 0x040
  | .a => 0x080
  | .b => 0x0C0
  | .f i => 0x400 + 0x40 * i.val

/-! ## What a completion leaves -/

/-- The operand field that names the point register n (30_encoding.md R81). -/
def pointField (n : Fin 8) : RegField := BitVec.ofNat 4 n.val

/-- From s to t a command completed (60_exceptions.md R183, R184) with the code err and VALID as given; CTRL, WDROP, M, A,
B, the build and the host's side are as before. That the latch is empty afterwards is the model's choice (log 8). -/
structure CompletedWith (s t : State) (err : BitVec 4) (valid : Bool) : Prop where
  err : t.status.err = err
  valid : t.status.valid = valid
  notBusy : t.status.busy = false
  done : t.status.done = true
  /-- Log 8. -/
  latch : t.latch = none
  wdrop : t.status.wdrop = s.status.wdrop
  ie : t.ie = s.ie
  modulus : t.regs.m = s.regs.m
  coeffA : t.regs.a = s.regs.a
  coeffB : t.regs.b = s.regs.b
  build : t.build = s.build
  env : t.env = s.env

/-- A field command completed: F[d] holds v, every other F register and PINF are as before. -/
structure FieldResult (s t : State) (d : Fin 16) (v : Nat) : Prop where
  completed : CompletedWith s t 0#4 s.status.valid
  result : t.regs.getF d = v
  others : ∀ j, j ≠ d → t.regs.getF j = s.regs.getF j
  pinf : t.regs.pinf = s.regs.pinf

/-- A point command completed: Pn holds the point as 41_curve_point.md R131 writes it, every other F register and every
other PINF bit are as before. -/
structure PointResult (s t : State) (n : Fin 8) (p : Pt) : Prop where
  completed : CompletedWith s t 0#4 s.status.valid
  x : t.regs.getF (xIndex n) = p.storedX
  y : t.regs.getF (yIndex n) = p.storedY
  inf : t.regs.getInf n = p.isInf
  others : ∀ j, j ≠ xIndex n → j ≠ yIndex n → t.regs.getF j = s.regs.getF j
  othersInf : ∀ k, k ≠ n → t.regs.getInf k = s.regs.getInf k

/-- A command completed with an error: no register, no PINF bit, not VALID. -/
structure ErrorResult (s t : State) (e : ErrCode) : Prop where
  completed : CompletedWith s t e.code s.status.valid
  regs : t.regs = s.regs

/-- The outcome is a next state that satisfies the predicate. -/
def NextSatisfies (o : Host.Outcome State Fault Refusal) (p : State → Prop) : Prop :=
  ∃ t, o = .next t ∧ p t

/-! ## Runs -/

/-- The state after a next outcome; on a fault or refusal, which no step of this machine answers, the state given. -/
def nextOr (s : State) : Host.Outcome State Fault Refusal → State
  | .next t => t
  | _ => s

/-- The state after n steps. -/
def run : Nat → State → State
  | 0, s => s
  | n + 1, s => run n (nextOr s (step s))

/-- The event lets the engine take a clock. -/
def Input.isEngineClock : Input → Bool
  | .clock => true
  | .accessInClock _ => true
  | .access _ => false
  | .reset => false

/-- The clocks the engine gets in a list of events. -/
def engineClocks (es : List Input) : Nat := es.countP Input.isEngineClock

/-! ## The group of the curve -/

/-- The curve y² = x³ + a·x + b over the integers mod p, as Mathlib writes a Weierstrass curve. -/
def curveOver (p a b : Nat) : WeierstrassCurve.Affine (ZMod p) :=
  { a₁ := 0, a₂ := 0, a₃ := 0, a₄ := (a : ZMod p), a₆ := (b : ZMod p) }

/-- A point of the curve's group, as the point value with coordinates in [0, p). -/
def ptOf {p a b : Nat} : (curveOver p a b).Point → Pt
  | .zero => .inf
  | .some x y _ => .aff x.val y.val

end Sys2Proof.Machine
end

