-- ==== Sys2Proof/Certificates/Slice0/Obligations.lean ====
section
/-! DEFINITION. Obligations.lean: the statements for the provers. The rule each formalises, or the sections it rests on, are
in its docstring and in OBLIGATIONS.json. `s.sources` are the values of the command's acceptance (10_state.md R35). Where a
statement says that the latch is empty after a completion, or that BUSY is 1 exactly while a command is latched, that clause is
the model's choice (log 8), and no rule's: `CompletedWith`, the results built on it, and `State.Inv` say it. -/

open Sys2Proof Sys2Proof.Machine

/-! ## Encoding -/

/-- R80, R81, R84: a command's word decodes to that command, with every operand the encoding admits. -/
def Obligations.WellFormedCommandsDecodeFromTheirWords : Prop :=
  ∀ i : Instr, i.wellFormed = true → decode (encode i) = .ok i

/-- R80, R84, R86: a word that decodes is the encoding of what it decodes to, so no bit of a word is ignored. -/
def Obligations.DecodedWordsAreTheirCommandsEncodings : Prop :=
  ∀ (w : Word) (i : Instr), decode w = .ok i → encode i = w ∧ i.wellFormed = true

/-- R86: the words that are ILLEGAL, that they are the words of no row, that one is accepted like any other, and that it
completes with ILLEGAL and writes no register. -/
def Obligations.IllegalWordsAreAcceptedAndCompleteWithIllegal : Prop :=
  (∀ w : Word, IllegalWord w ↔ ∃ e, decode w = .error e) ∧
  (∀ w : Word, IllegalWord w ↔ ∀ r ∈ opcodeRows, r.selects w = false) ∧
  (∀ (s : State) (w : Word), s.status.busy = false → IllegalWord w →
    (s.writeWord (indexOf 0x010) w).status.busy = true ∧ (s.writeWord (indexOf 0x010) w).status.done = false ∧
    ∃ l, (s.writeWord (indexOf 0x010) w).latch = some l ∧ l.word = w) ∧
  (∀ (s : State) (l : Latch), s.latch = some l → l.remaining = 0 → IllegalWord l.word →
    NextSatisfies s.clock (fun t => t.regs = s.regs ∧ t.ie = s.ie ∧
      t.status = { s.status with err := 1#4, busy := false, done := true }))

/-- R84: no word is of two rows, and the row that selects a legal word is its command's. -/
def Obligations.EveryLegalWordHasExactlyItsOwnRow : Prop :=
  (∀ (w : Word) (r r' : OpcodeRow), r ∈ opcodeRows → r' ∈ opcodeRows → r.selects w = true → r'.selects w = true →
    r = r') ∧
  (∀ (w : Word) (i : Instr), decode w = .ok i →
    ∀ r ∈ opcodeRows, r.selects w = true ↔ r.mnemonic = i.mnemonic)

/-- R88 and 95_test_vectors.md 2.1: sample words. -/
def Obligations.SampleWordsDecode : Prop :=
  decode 0x00021301#32 = .ok (.modmul 3 1 2) ∧ decode 0x00021002#32 = .ok (.modpow 0 1 2) ∧
  decode 0x00001203#32 = .ok (.modinv 2 1) ∧ decode 0x00000110#32 = .ok (.pdbl 1 0) ∧
  decode 0x00070711#32 = .ok (.padd 7 0 7) ∧ decode 0x000F0112#32 = .ok (.pmul 1 0 15) ∧
  decode 0x00007013#32 = .ok (.pverify 7)

/-! ## Steps, reset and the invariant -/

/-- R72, R181: when a latched command has no clock left to wait, the step that gives the engine its clock is exec of the
command its word decodes to, after taking the event from the coming ones. That a clock passes when no event is coming, and
that the host's access stands before the completion of the same clock, are the model's choices (logs 4 and 6). -/
def Obligations.StepRunsTheLatchedCommand : Prop :=
  ∀ (s : State) (l : Latch) (i : Instr), s.latch = some l → l.remaining = 0 → decode l.word = .ok i →
    (s.env.inputs = [] → step s = exec i s) ∧
    (∀ es, s.env.inputs = .clock :: es → step s = exec i (s.withInputs es)) ∧
    (∀ a es, s.status.busy = true → s.env.inputs = .accessInClock a :: es →
      step s = exec i ((s.withInputs es).hostAccess a))

/-- R181: the very next step after `withFetchWord` runs the word it was given, on the registers as they are. That placing a
word stands for the acceptance of a CMD write is the model's choice (log 7). -/
def Obligations.PlacedWordRunsInTheNextStep : Prop :=
  ∀ (s : State) (nbits w : Nat) (i : Instr), decodeTableWord nbits w = some i →
    step (s.withFetchWord nbits w) = exec i (s.acceptWith (tableWord nbits w) 0)

/-- R72, R181, R199, R210: every other step: a host access is that access, reset is reset, an idle engine's clock does
nothing, a command with clocks left waits one (after the host's access, if one is in the same clock), and a latched word that is
no command raises ILLEGAL. The list of coming events and the order within one clock are the model's choices (logs 4 and 6). -/
def Obligations.StepTakesTheNextEvent : Prop :=
  ∀ s : State,
    (∀ a es, s.env.inputs = .access a :: es → step s = .next ((s.withInputs es).hostAccess a)) ∧
    (∀ es, s.env.inputs = .reset :: es → step s = .next (s.withInputs es).resetEvent) ∧
    (s.latch = none →
      (s.env.inputs = [] → step s = .next s) ∧
      (∀ es, s.env.inputs = .clock :: es → step s = .next (s.withInputs es)) ∧
      (∀ a es, s.env.inputs = .accessInClock a :: es → step s = .next ((s.withInputs es).hostAccess a))) ∧
    (∀ l n, s.latch = some l → l.remaining = n + 1 →
      (s.env.inputs = [] → step s = .next { s with latch := some { l with remaining := n } }) ∧
      (∀ es, s.env.inputs = .clock :: es →
        step s = .next { s.withInputs es with latch := some { l with remaining := n } }) ∧
      (∀ a es, s.status.busy = true → s.env.inputs = .accessInClock a :: es →
        step s = .next { (s.withInputs es).hostAccess a with latch := some { l with remaining := n } })) ∧
    (∀ l e, s.latch = some l → l.remaining = 0 → decode l.word = .error e →
      (s.env.inputs = [] → step s = .next (s.raise .illegal)) ∧
      (∀ es, s.env.inputs = .clock :: es → step s = .next ((s.withInputs es).raise .illegal)) ∧
      (∀ a es, s.status.busy = true → s.env.inputs = .accessInClock a :: es →
        step s = .next (((s.withInputs es).hostAccess a).raise .illegal)))

/-- R65, R182, R188: nothing stops the block: every step and every command, in every state, answers a next state (DEDUCED,
log 12). -/
def Obligations.EveryStepAnswersANextState : Prop :=
  (∀ s : State, ∃ t, step s = .next t) ∧ (∀ (i : Instr) (s : State), ∃ t, exec i s = .next t)

/-- R22, R24, R104, R180, R183, R185, R215: the invariant of the block is kept by every step from every state that has it,
and the build never changes. The invariant's clause that BUSY is 1 exactly while a command is latched is the model's choice
(log 8): the spec does not say what the latch holds after a completion. -/
def Obligations.EveryStepKeepsTheInvariant : Prop :=
  ∀ s t : State, s.Inv → step s = .next t → t.Inv ∧ t.build = s.build

/-- R210: the reset state of every build has the invariant (whose clause on BUSY and the latch is log 8's). -/
def Obligations.ResetStatesMeetTheInvariant : Prop :=
  ∀ b : Build, (State.resetFor b).Inv

/-- R210: the reset values, in every build, at the start and after the reset event; the coming events of the host are not
the block's and stay (log 15). -/
def Obligations.ResetLeavesTheStatedValues : Prop :=
  let ResetValues : State → Prop := fun t =>
    (∀ i, t.regs.getF i = 0) ∧ t.regs.m = 0 ∧ t.regs.a = 0 ∧ t.regs.b = 0 ∧ t.regs.pinf = 0xFF#8 ∧
    t.readWord (indexOf 0x014) = 0x000000FF#32 ∧ t.ie = false ∧ t.readWord (indexOf 0x008) = 0x00000000#32 ∧
    t.status = ⟨false, false, false, false, 0#4⟩ ∧ t.readWord (indexOf 0x00C) = 0x00000000#32 ∧
    t.readWord (indexOf 0x000) = 0x45434F50#32 ∧
    ((t.readWord (indexOf 0x004)).extractLsb' 0 16).toNat = t.build.w ∧
    (t.readWord (indexOf 0x004)).extractLsb' 16 16 = 0x0810#16 ∧
    t.irq = false ∧ t.latch = none
  (∀ b : Build, ResetValues (State.resetFor b) ∧ (State.resetFor b).build = b) ∧
  (∀ (s : State) (es : List Input), s.env.inputs = .reset :: es →
    NextSatisfies (step s) (fun t => ResetValues t ∧ t.build = s.build))

/-- R211: reset while busy leaves the reset state; no other event ends a command that still has clocks to wait, and none
writes a register meanwhile. -/
def Obligations.OnlyResetEndsACommandEarly : Prop :=
  ∀ (s t : State) (l : Latch), s.status.busy = true → s.latch = some l → step s = .next t →
    (∀ es, s.env.inputs = .reset :: es → { t with env := Env.reset } = State.resetFor s.build) ∧
    (s.env.inputs.head? ≠ some .reset → 0 < l.remaining →
      t.status.busy = true ∧ t.regs = s.regs ∧ ∃ n, t.latch = some { l with remaining := n } ∧ n ≤ l.remaining)

/-! ## The life of a command -/

/-- R29, R180: acceptance of any word while idle; while busy a write of CMD is discarded and sets WDROP; a read of CMD returns
0 and has no effect on the block. -/
def Obligations.CmdWriteWhileIdleAcceptsTheWord : Prop :=
  ∀ (s : State) (c : Word),
    (s.status.busy = false →
      (∃ n, (s.writeWord (indexOf 0x010) c).latch = some { word := c, snap := s.regs, remaining := n }) ∧
      (s.writeWord (indexOf 0x010) c).status = { s.status with busy := true, done := false } ∧
      (s.writeWord (indexOf 0x010) c).regs = s.regs ∧ (s.writeWord (indexOf 0x010) c).ie = s.ie) ∧
    (s.status.busy = true →
      s.writeWord (indexOf 0x010) c = { s with status := { s.status with wdrop := true } }) ∧
    s.readWord (indexOf 0x010) = 0x00000000#32 ∧
    s.hostAccess (.read (indexOf 0x010)) = { s with env := { s.env with answer := some 0x00000000#32 } }

/-- R183, R184: a completion either commits with code 0 or raises an error; with an error nothing but STATUS changes; in
both cases M, A, B, CTRL, WDROP and the host's side are as before. (Which registers a commit writes: the statements of the
commands.) That the latch is empty afterwards is the model's choice (log 8). -/
def Obligations.CompletionCommitsOrChangesStatusOnly : Prop :=
  ∀ (s t : State) (l : Latch), s.latch = some l → l.remaining = 0 → s.clock = .next t →
    (t.status.err = 0#4 ∧ CompletedWith s t 0#4 t.status.valid) ∨
    (∃ e, t.status.err = e.code ∧ ErrorResult s t e)

/-- R182, R216, R220: with no host access, a command completes after exactly the clocks it has left and one more; until
then BUSY = 1 and every register holds its value from before the command. How many clocks those are is free (log 3);
that clocks pass when no event is coming, and that the latch is empty afterwards, are the model's choices (logs 4 and 8). -/
def Obligations.EveryAcceptedCommandCompletes : Prop :=
  ∀ (s : State) (l : Latch), s.status.busy = true → s.latch = some l → s.env.inputs = [] →
    (∀ k, k ≤ l.remaining → (run k s).status.busy = true ∧ (run k s).regs = s.regs) ∧
    (run (l.remaining + 1) s).status.busy = false ∧ (run (l.remaining + 1) s).status.done = true ∧
    (run (l.remaining + 1) s).latch = none

/-- R35, R75, R180, R215: whatever the host reads and writes while a command runs, short of reset, the command commits
what it would have committed alone: the registers, VALID and ERR are those of its completion in the state without the
accesses, for a latched word that is a command (exec of it) and for one that is ILLEGAL. The order within one clock is
the model's choice (log 6). (Latch: log 8.) -/
def Obligations.HostAccessesDoNotDisturbARunningCommand : Prop :=
  ∀ (s u : State) (l : Latch) (before : List Input) (last : Input),
    s.Inv → s.latch = some l → s.completeCommand l.word = .next u →
    .reset ∉ before → engineClocks before = l.remaining → last.isEngineClock = true →
    (run (before.length + 1) (s.withInputs (before ++ [last]))).regs = u.regs ∧
    (run (before.length + 1) (s.withInputs (before ++ [last]))).status.valid = u.status.valid ∧
    (run (before.length + 1) (s.withInputs (before ++ [last]))).status.err = u.status.err ∧
    (run (before.length + 1) (s.withInputs (before ++ [last]))).status.busy = false ∧
    (run (before.length + 1) (s.withInputs (before ++ [last]))).status.done = true

/-- R27, R35: a command computes on its snapshot and on nothing else, no STATUS bit, not CTRL, no register as it is at
completion: with equal snapshots, ERR, the destination and PVERIFY's VALID are equal, whatever else differs. What it does not
write it leaves: equal registers stay equal, and equal VALID. -/
def Obligations.CommandsReadOnlyTheirSnapshot : Prop :=
  ∀ (i : Instr) (s s' t t' : State), s.sources = s'.sources → exec i s = .next t → exec i s' = .next t' →
    t.status.err = t'.status.err ∧
    (s.status.valid = s'.status.valid → t.status.valid = t'.status.valid) ∧
    (s.regs = s'.regs → t.regs = t'.regs) ∧
    (t.status.err = 0#4 →
      (∀ s1, i = .pverify s1 → t.status.valid = t'.status.valid) ∧
      (∀ d s1 s2, i = .modmul d s1 s2 ∨ i = .modpow d s1 s2 ∨ i = .modinv d s1 →
        t.regs.getF (fieldIndex d) = t'.regs.getF (fieldIndex d)) ∧
      (∀ pd s1 s2, i = .pdbl (pointField pd) s1 ∨ i = .padd (pointField pd) s1 s2 ∨ i = .pmul (pointField pd) s1 s2 →
        t.regs.getF (xIndex pd) = t'.regs.getF (xIndex pd) ∧ t.regs.getF (yIndex pd) = t'.regs.getF (yIndex pd) ∧
        t.regs.getInf pd = t'.regs.getInf pd))

/-! ## The commands: where each completes, with its result and its frame -/

/-- R110: MODMUL. (Latch: log 8.) -/
def Obligations.ModmulWritesTheProductModM : Prop :=
  ∀ (d s1 s2 : RegField) (s : State), s.sources.m ≠ 0 →
    NextSatisfies (exec (.modmul d s1 s2) s) (fun t => FieldResult s t (fieldIndex d)
      (s.sources.getF (fieldIndex s1) * s.sources.getF (fieldIndex s2) % s.sources.m))

/-- R102, R111: MODPOW, in the closed form: exponent 0 gives 1 for every base and every M ≥ 1. (Latch: log 8.) -/
def Obligations.ModpowWritesThePowerModM : Prop :=
  ∀ (d s1 s2 : RegField) (s : State), s.sources.m ≠ 0 →
    NextSatisfies (exec (.modpow d s1 s2) s) (fun t => FieldResult s t (fieldIndex d)
      (if s.sources.getF (fieldIndex s2) = 0 then 1
       else s.sources.getF (fieldIndex s1) ^ s.sources.getF (fieldIndex s2) % s.sources.m))

/-- R103, R112: MODINV writes the Fermat value, for a composite M too; M = 2 gives 1. (Latch: log 8.) -/
def Obligations.ModinvWritesTheFermatPower : Prop :=
  ∀ (d s1 : RegField) (s : State), 2 ≤ s.sources.m → s.sources.getF (fieldIndex s1) % s.sources.m ≠ 0 →
    NextSatisfies (exec (.modinv d s1) s) (fun t => FieldResult s t (fieldIndex d)
      (if s.sources.m = 2 then 1 else s.sources.getF (fieldIndex s1) ^ (s.sources.m - 2) % s.sources.m))

/-- R103: over a prime modulus, what MODINV writes is the residue whose product with the operand is 1. (Latch: log 8.)
-/
def Obligations.ModinvInvertsModuloAPrime : Prop :=
  ∀ (d s1 : RegField) (s : State), s.sources.m.Prime → s.sources.getF (fieldIndex s1) % s.sources.m ≠ 0 →
    ∃ u, u < s.sources.m ∧ u * s.sources.getF (fieldIndex s1) % s.sources.m = 1 ∧
      (∀ u' < s.sources.m, u' * s.sources.getF (fieldIndex s1) % s.sources.m = 1 → u' = u) ∧
      NextSatisfies (exec (.modinv d s1) s) (fun t => FieldResult s t (fieldIndex d) u)

/-- R130, R131, R132, R140: PDBL by the affine formulas over the reduced coordinates, the slope with the Fermat inverse;
infinity and y = 0 give infinity. (Where it raises NONINV: NoninvIsRaisedExactlyWhereR186Says.) (Latch: log 8.) -/
def Obligations.PdblDoublesThePoint : Prop :=
  ∀ (pd ps : Fin 8) (s : State), 3 < s.sources.m →
    let M := s.sources.m
    let x := s.sources.getF (xIndex ps) % M
    let y := s.sources.getF (yIndex ps) % M
    let c : Int := ((3 * x ^ 2 + s.sources.a) * (2 * y) ^ (M - 2) % M : Nat)
    (s.sources.getInf ps = true ∨ y = 0 →
      NextSatisfies (exec (.pdbl (pointField pd) (pointField ps)) s) (fun t => PointResult s t pd .inf)) ∧
    (s.sources.getInf ps = false → y ≠ 0 → 2 * y % M ≠ 0 →
      ∃ x3 y3 : Nat, (x3 : Int) = (c ^ 2 - 2 * x) % M ∧ (y3 : Int) = (c * (x - x3) - y) % M ∧
        NextSatisfies (exec (.pdbl (pointField pd) (pointField ps)) s) (fun t => PointResult s t pd (.aff x3 y3)))

/-- R130, R131, R133, R141: PADD by cases: the other point is infinity, self is infinity, equal x with unequal y, the
dispatch to doubling, and the affine formulas with self's coordinates in the last step. (Latch: log 8.) -/
def Obligations.PaddAddsThePoints : Prop :=
  ∀ (pd self other : Fin 8) (s : State), 3 < s.sources.m →
    let M := s.sources.m
    let x1 := s.sources.getF (xIndex self) % M
    let y1 := s.sources.getF (yIndex self) % M
    let x2 := s.sources.getF (xIndex other) % M
    let y2 := s.sources.getF (yIndex other) % M
    let c : Int := (y2 - y1) * (x2 - x1) ^ (M - 2) % (M : Int)
    let add := Instr.padd (pointField pd) (pointField self) (pointField other)
    (s.sources.getInf other = true → s.sources.getInf self = true →
      NextSatisfies (exec add s) (fun t => PointResult s t pd .inf)) ∧
    (s.sources.getInf other = true → s.sources.getInf self = false →
      NextSatisfies (exec add s) (fun t => PointResult s t pd (.aff x1 y1))) ∧
    (s.sources.getInf other = false → s.sources.getInf self = true →
      NextSatisfies (exec add s) (fun t => PointResult s t pd (.aff x2 y2))) ∧
    (s.sources.getInf other = false → s.sources.getInf self = false → x1 = x2 → y1 ≠ y2 →
      NextSatisfies (exec add s) (fun t => PointResult s t pd .inf)) ∧
    (s.sources.getInf other = false → s.sources.getInf self = false → x1 = x2 → y1 = y2 →
      exec add s = exec (.pdbl (pointField pd) (pointField self)) s) ∧
    (s.sources.getInf other = false → s.sources.getInf self = false → x1 ≠ x2 →
      ∃ x3 y3 : Nat, (x3 : Int) = (c ^ 2 - x1 - x2) % M ∧ (y3 : Int) = (c * (x1 - x3) - y1) % M ∧
        NextSatisfies (exec add s) (fun t => PointResult s t pd (.aff x3 y3)))

/-- R133: over a prime modulus the order of PADD's operands makes no difference, on the curve or off it. -/
def Obligations.PaddCommutesModuloAPrime : Prop :=
  ∀ (pd p q : Fin 8) (s : State), s.sources.m.Prime → 3 < s.sources.m →
    exec (.padd (pointField pd) (pointField p) (pointField q)) s =
      exec (.padd (pointField pd) (pointField q) (pointField p)) s

/-- R160, R170, R186: PMUL over any modulus in range: it commits the point of the double-and-add loop, or raises NONINV,
over an even modulus only, when a doubling of the loop fails. (Latch: log 8.) -/
def Obligations.PmulCommitsTheLoopOrRaisesNoninv : Prop :=
  ∀ (pd ps : Fin 8) (k : RegField) (s : State), 3 < s.sources.m →
    let result := smul (s.sources.getF (fieldIndex k)) (s.sources.rdpt ps) (s.sources.a % s.sources.m) s.sources.m
    let pmul := Instr.pmul (pointField pd) (pointField ps) k
    (∀ p, result = .ok p → NextSatisfies (exec pmul s) (fun t => PointResult s t pd p)) ∧
    (∀ e, result = .error e → e = .noninv ∧ s.sources.m % 2 = 0 ∧
      NextSatisfies (exec pmul s) (fun t => ErrorResult s t .noninv))

/-- R160, R170, R186: over an odd modulus PMUL always commits a point, with reduced coordinates, whatever the scalar;
the scalars 0 and 1 give infinity and the reduced copy, and an infinite point gives infinity. (Latch: log 8.) -/
def Obligations.PmulCompletesOverAnOddModulus : Prop :=
  ∀ (pd ps : Fin 8) (k : RegField) (s : State), 3 < s.sources.m → s.sources.m % 2 = 1 →
    ∃ p : Pt, p.Reduced s.sources.m ∧
      NextSatisfies (exec (.pmul (pointField pd) (pointField ps) k) s) (fun t => PointResult s t pd p) ∧
      (s.sources.getF (fieldIndex k) = 0 ∨ s.sources.getInf ps = true → p = .inf) ∧
      (s.sources.getF (fieldIndex k) = 1 → p = s.sources.rdpt ps)

/-- R160: for every modulus, the scalar 2k on a point is the scalar k on its double; 0, 1 and 2 give infinity, the point and
its double; 3 gives the point plus its double, in that order of operands. -/
def Obligations.ScalarTwiceKOnAPointIsKOnItsDouble : Prop :=
  ∀ (p : Pt) (a m : Nat),
    smul 0 p a m = .ok .inf ∧ smul 1 p a m = .ok p ∧ smul 2 p a m = dbl p a m ∧
    (∀ q, dbl p a m = .ok q → smul 3 p a m = add p q a m) ∧
    (∀ k q, dbl p a m = .ok q → smul (2 * k) p a m = smul k q a m) ∧
    (∀ k e, 0 < k → dbl p a m = .error e → smul (2 * k) p a m = .error e)

/-- R161, R171: PVERIFY sets VALID exactly to "infinity, or y² ≡ x³ + A·x + B (mod M)", for unreduced coordinates and
coefficients too, and writes no register. (Latch: log 8.) -/
def Obligations.PverifyTestsTheCurveEquation : Prop :=
  ∀ (ps : Fin 8) (s : State), 3 < s.sources.m →
    ∃ valid : Bool,
      (valid = true ↔ s.sources.getInf ps = true ∨
        s.sources.getF (yIndex ps) ^ 2 ≡ s.sources.getF (xIndex ps) ^ 3 + s.sources.a * s.sources.getF (xIndex ps) +
          s.sources.b [MOD s.sources.m]) ∧
      NextSatisfies (exec (.pverify (pointField ps)) s)
        (fun t => CompletedWith s t 0#4 valid ∧ t.regs = s.regs)

/-- R132, R133, R140, R141: over a prime modulus, PADD and PDBL on points of the curve compute the group law of the
curve that Mathlib defines. That equal x and unequal y mean Q = −P over a prime modulus is a sentence of R133 that the
spec marks as general knowledge. (Latch: log 8.) -/
def Obligations.PaddAndPdblAreTheGroupLaw : Prop :=
  ∀ (p a b : Nat) [Fact p.Prime] (P Q : (curveOver p a b).Point) (pd p1 p2 : Fin 8) (s : State), 3 < p →
    s.sources.m = p → s.sources.a % p = a % p → s.sources.rdpt p1 = ptOf P → s.sources.rdpt p2 = ptOf Q →
    NextSatisfies (exec (.padd (pointField pd) (pointField p1) (pointField p2)) s)
      (fun t => PointResult s t pd (ptOf (P + Q))) ∧
    NextSatisfies (exec (.pdbl (pointField pd) (pointField p1)) s) (fun t => PointResult s t pd (ptOf (P + P)))

/-- R160 (there marked as general knowledge), R170: over a prime modulus, PMUL on a point of the curve computes its
multiple in the curve's group. (Latch: log 8.) -/
def Obligations.PmulIsTheGroupMultiple : Prop :=
  ∀ (p a b : Nat) [Fact p.Prime] (P : (curveOver p a b).Point) (pd ps : Fin 8) (k : RegField) (s : State), 3 < p →
    s.sources.m = p → s.sources.a % p = a % p → s.sources.rdpt ps = ptOf P →
    NextSatisfies (exec (.pmul (pointField pd) (pointField ps) k) s)
      (fun t => PointResult s t pd (ptOf (s.sources.getF (fieldIndex k) • P)))

/-- R130, R131: a point command's result is stored so that reading the point register back, under the same modulus,
gives the result unchanged. (Latch: log 8.) -/
def Obligations.PointResultsReadBackUnchanged : Prop :=
  ∀ (pd ps p2 : Fin 8) (k : RegField) (s t : State) (i : Instr),
    i = .pdbl (pointField pd) (pointField ps) ∨ i = .padd (pointField pd) (pointField ps) (pointField p2) ∨
      i = .pmul (pointField pd) (pointField ps) k →
    s.sources.m = s.regs.m → exec i s = .next t → t.status.err = 0#4 →
    ∃ p : Pt, p.Reduced s.regs.m ∧ PointResult s t pd p ∧ t.regs.rdpt pd = p

/-! ## Errors -/

/-- R110 to R112, R134, R185, R186: a well-formed command raises MODULUS exactly when M is below its range. (Latch: log
8.) -/
def Obligations.ModulusIsRaisedExactlyBelowTheRange : Prop :=
  ∀ (i : Instr) (s : State), i.wellFormed = true →
    (s.sources.m < minModulus i → NextSatisfies (exec i s) (fun t => ErrorResult s t .modulus)) ∧
    (minModulus i ≤ s.sources.m →
      NextSatisfies (exec i s) (fun t => t.status.err = 0#4 ∨ t.status.err = 3#4))

/-- R112, R132, R185, R186: where NONINV is raised: by MODINV for a multiple of M; by PDBL, and by PADD through the
dispatch to doubling, for an even M and y = M/2; by PMUL exactly when its loop fails, over an even M only; never by
MODMUL, MODPOW or PVERIFY. (Latch: log 8.) -/
def Obligations.NoninvIsRaisedExactlyWhereR186Says : Prop :=
  ∀ s : State,
    (∀ d s1 : RegField, 2 ≤ s.sources.m →
      (NextSatisfies (exec (.modinv d s1) s) (fun t => ErrorResult s t .noninv) ↔
        s.sources.getF (fieldIndex s1) % s.sources.m = 0)) ∧
    (∀ pd ps : Fin 8, 3 < s.sources.m →
      (NextSatisfies (exec (.pdbl (pointField pd) (pointField ps)) s) (fun t => ErrorResult s t .noninv) ↔
        s.sources.getInf ps = false ∧ s.sources.m % 2 = 0 ∧
          s.sources.getF (yIndex ps) % s.sources.m = s.sources.m / 2)) ∧
    (∀ pd p1 p2 : Fin 8, 3 < s.sources.m →
      (NextSatisfies (exec (.padd (pointField pd) (pointField p1) (pointField p2)) s)
          (fun t => ErrorResult s t .noninv) ↔
        s.sources.getInf p1 = false ∧ s.sources.rdpt p1 = s.sources.rdpt p2 ∧ s.sources.m % 2 = 0 ∧
          s.sources.getF (yIndex p1) % s.sources.m = s.sources.m / 2)) ∧
    (∀ (pd ps : Fin 8) (k : RegField), 3 < s.sources.m →
      (NextSatisfies (exec (.pmul (pointField pd) (pointField ps) k) s) (fun t => ErrorResult s t .noninv) ↔
        smul (s.sources.getF (fieldIndex k)) (s.sources.rdpt ps) (s.sources.a % s.sources.m) s.sources.m =
          .error .noninv) ∧
      (NextSatisfies (exec (.pmul (pointField pd) (pointField ps) k) s) (fun t => ErrorResult s t .noninv) →
        s.sources.m % 2 = 0)) ∧
    (∀ (t : State) (d s1 s2 : RegField), exec (.modmul d s1 s2) s = .next t → t.status.err ≠ 3#4) ∧
    (∀ (t : State) (d s1 s2 : RegField), exec (.modpow d s1 s2) s = .next t → t.status.err ≠ 3#4) ∧
    (∀ (t : State) (s1 : RegField), exec (.pverify s1) s = .next t → t.status.err ≠ 3#4)

/-- R132, R133, R170, R185: over an odd modulus no point command raises NONINV. -/
def Obligations.OddModulusNeverRaisesNoninv : Prop :=
  ∀ (i : Instr) (s t : State), s.sources.m % 2 = 1 → 4 ≤ minModulus i → exec i s = .next t → t.status.err ≠ 3#4

/-- R187: ILLEGAL before MODULUS before NONINV, and exactly one code; the first doubling of PMUL's loop that fails ends
it. (Latch: log 8.) -/
def Obligations.ErrorsHaveTheirPriority : Prop :=
  (∀ (s : State) (l : Latch), s.latch = some l → l.remaining = 0 → IllegalWord l.word →
    NextSatisfies s.clock (fun t => ErrorResult s t .illegal)) ∧
  (∀ (s : State) (l : Latch) (i : Instr), s.latch = some l → l.remaining = 0 → decode l.word = .ok i →
    l.snap.m < minModulus i → NextSatisfies s.clock (fun t => ErrorResult s t .modulus)) ∧
  (∀ (s : State) (l : Latch) (i : Instr), s.latch = some l → l.remaining = 0 → decode l.word = .ok i →
    minModulus i ≤ l.snap.m → NextSatisfies s.clock (fun t => t.status.err = 0#4 ∨ t.status.err = 3#4)) ∧
  (∀ (fuel k a m : Nat) (v result : Pt) (e : ErrCode), 0 < k → dbl v a m = .error e →
    smulLoop a m (fuel + 1) v result k = .error e ∧ e = .noninv)

/-- R86 (d), R187, log 11: a command term with an operand that names no point register completes with ILLEGAL. (Latch:
log 8.) -/
def Obligations.OperandsThatNameNoPointRegisterAreIllegal : Prop :=
  ∀ (i : Instr) (s : State), i.wellFormed = false → NextSatisfies (exec i s) (fun t => ErrorResult s t .illegal)

/-! ## Frames -/

/-- R24, R26, R27, R28, R183, R184: no command writes M, A, B, CTRL or WDROP, the build or the host's side; only PVERIFY
writes VALID; only point commands write PINF. -/
def Obligations.CommandsLeaveConfigurationAndControlAlone : Prop :=
  ∀ (i : Instr) (s t : State), exec i s = .next t →
    t.regs.m = s.regs.m ∧ t.regs.a = s.regs.a ∧ t.regs.b = s.regs.b ∧ t.ie = s.ie ∧
    t.status.wdrop = s.status.wdrop ∧ t.build = s.build ∧ t.env = s.env ∧
    ((∀ s1, i ≠ .pverify s1) → t.status.valid = s.status.valid) ∧
    ((∀ d s1 s2, i ≠ .padd d s1 s2) → (∀ d s1, i ≠ .pdbl d s1) → (∀ d s1 s2, i ≠ .pmul d s1 s2) →
      t.regs.pinf = s.regs.pinf)

/-- R22, R183, R193: through the host's window: after a field command every word outside STATUS and outside the words of the
destination register reads as before; after PVERIFY, every word outside STATUS. -/
def Obligations.FieldCommandsLeaveOtherWindowWordsAlone : Prop :=
  ∀ (s t : State) (k : WordIndex), locate s.build k ≠ .status →
    (∀ d s1 s2, exec (.modmul d s1 s2) s = .next t ∨ exec (.modpow d s1 s2) s = .next t ∨
        exec (.modinv d s1) s = .next t →
      (∀ j, locate s.build k ≠ .operand (.f (fieldIndex d)) j) → t.readWord k = s.readWord k) ∧
    (∀ s1, exec (.pverify s1) s = .next t → t.readWord k = s.readWord k)

/-- R22, R23, R183, R193: through the host's window: after a point command every word outside STATUS, PINF and the words of
the destination's two coordinate registers reads as before. -/
def Obligations.PointCommandsLeaveOtherWindowWordsAlone : Prop :=
  ∀ (s t : State) (k : WordIndex) (pd : Fin 8), locate s.build k ≠ .status → locate s.build k ≠ .pinf →
    (∀ j, locate s.build k ≠ .operand (.f (xIndex pd)) j) → (∀ j, locate s.build k ≠ .operand (.f (yIndex pd)) j) →
    ∀ s1 s2, exec (.pdbl (pointField pd) s1) s = .next t ∨ exec (.padd (pointField pd) s1 s2) s = .next t ∨
        exec (.pmul (pointField pd) s1 s2) s = .next t →
      t.readWord k = s.readWord k

/-- R23, R218: a host write of an operand word and a field command leave every infinity flag alone; after reset every point
register is infinity, and one whose flag is 1 is infinity whatever its coordinates. -/
def Obligations.WritingCoordinatesLeavesTheInfinityFlags : Prop :=
  (∀ (s : State) (i : WordIndex) (v : Word) (r : OperandReg) (j : Nat), locate s.build i = .operand r j →
    (s.writeWord i v).regs.pinf = s.regs.pinf) ∧
  (∀ (s t : State) (d s1 s2 : RegField),
    exec (.modmul d s1 s2) s = .next t ∨ exec (.modpow d s1 s2) s = .next t ∨ exec (.modinv d s1) s = .next t →
    t.regs.pinf = s.regs.pinf) ∧
  (∀ (b : Build) (n : Fin 8), (State.resetFor b).regs.getInf n = true) ∧
  (∀ (r : Regs) (n : Fin 8), r.getInf n = true → r.rdpt n = .inf)

/-! ## The register window -/

/-- R33: the ID register. -/
def Obligations.IdReadsItsConstantAndIgnoresWrites : Prop :=
  ∀ s : State, s.readWord (indexOf 0x000) = 0x45434F50#32 ∧ ∀ v, s.writeWord (indexOf 0x000) v = s

/-- R34: the PARAM register. -/
def Obligations.ParamReadsTheBuildAndIgnoresWrites : Prop :=
  ∀ s : State,
    ((s.readWord (indexOf 0x004)).extractLsb' 0 16).toNat = s.build.w ∧
    (s.readWord (indexOf 0x004)).extractLsb' 16 8 = 16#8 ∧ (s.readWord (indexOf 0x004)).extractLsb' 24 8 = 8#8 ∧
    (s.build.w = 256 → s.readWord (indexOf 0x004) = 0x08100100#32) ∧
    ∀ v, s.writeWord (indexOf 0x004) v = s

/-- R28: the CTRL register, busy or idle. -/
def Obligations.CtrlHoldsTheInterruptEnableOnly : Prop :=
  (∀ (s : State) (v : Word), s.writeWord (indexOf 0x008) v = { s with ie := v.getLsbD 0 }) ∧
  (∀ s : State, (s.readWord (indexOf 0x008)).getLsbD 0 = s.ie ∧
    ∀ n, 1 ≤ n → (s.readWord (indexOf 0x008)).getLsbD n = false) ∧
  ∀ b : Build, (State.resetFor b).ie = false

/-- R26: what STATUS reads, bit by bit, and what a write of it does, busy or idle. -/
def Obligations.StatusReadsItsFieldsAndClearsByWritingOne : Prop :=
  ∀ s : State,
    (s.readWord (indexOf 0x00C)).getLsbD 0 = s.status.busy ∧ (s.readWord (indexOf 0x00C)).getLsbD 1 = s.status.done ∧
    (s.readWord (indexOf 0x00C)).getLsbD 2 = s.status.valid ∧
    (s.readWord (indexOf 0x00C)).getLsbD 3 = s.status.wdrop ∧
    (s.readWord (indexOf 0x00C)).extractLsb' 4 4 = 0#4 ∧ (s.readWord (indexOf 0x00C)).extractLsb' 8 4 = s.status.err ∧
    (s.readWord (indexOf 0x00C)).extractLsb' 12 20 = 0#20 ∧
    ∀ v : Word, s.writeWord (indexOf 0x00C) v =
      { s with status := { s.status with
          done := if v.getLsbD 1 then false else s.status.done,
          wdrop := if v.getLsbD 3 then false else s.status.wdrop } }

/-- R30: the PINF register: read in bits 7:0, written while idle, reserved bits 31:8, and its reset value. -/
def Obligations.PinfHoldsEightInfinityFlags : Prop :=
  (∀ s : State, (s.readWord (indexOf 0x014)).extractLsb' 0 8 = s.regs.pinf ∧
    (s.readWord (indexOf 0x014)).extractLsb' 8 24 = 0#24 ∧ ∀ n, s.regs.getInf n = (s.readWord (indexOf 0x014)).getLsbD n) ∧
  (∀ (s : State) (v : Word), s.status.busy = false →
    s.writeWord (indexOf 0x014) v = { s with regs := { s.regs with pinf := v.extractLsb' 0 8 } } ∧
    ∀ n : Fin 8, v.getLsbD n = false → (s.writeWord (indexOf 0x014) v).regs.rdpt n =
      .aff (s.regs.getF (xIndex n) % s.regs.m) (s.regs.getF (yIndex n) % s.regs.m)) ∧
  (∀ b : Build, (State.resetFor b).readWord (indexOf 0x014) = 0x000000FF#32 ∧
    ∀ n, (State.resetFor b).regs.rdpt n = .inf)

/-- R61, R63: the address map of the operand registers: the word at the slot's base offset + 4j reads bits 32j+31 : 32j of
the register, for every word the build has. -/
def Obligations.OperandWordsReadAtTheirOffsets : Prop :=
  ∀ (s : State) (j : Nat), j < s.build.nw →
    s.readWord (indexOf (0x040 + 4 * j)) = BitVec.ofNat 32 (s.regs.m / 2 ^ (32 * j)) ∧
    s.readWord (indexOf (0x080 + 4 * j)) = BitVec.ofNat 32 (s.regs.a / 2 ^ (32 * j)) ∧
    s.readWord (indexOf (0x0C0 + 4 * j)) = BitVec.ofNat 32 (s.regs.b / 2 ^ (32 * j)) ∧
    ∀ i : Fin 16, s.readWord (indexOf (0x400 + 0x40 * i.val + 4 * j)) =
      BitVec.ofNat 32 (s.regs.getF i / 2 ^ (32 * j))

/-- R63, R67: the NW words of any operand register (M, A, B, F0 to F15), written in any order while idle, leave the value they
are the words of, and change nothing else. -/
def Obligations.RegisterHoldsItsWordsWhateverTheOrder : Prop :=
  ∀ (s : State) (r : OperandReg) (v : Nat) (order : List Nat), s.status.busy = false → s.regs.InRange s.build →
    v < 2 ^ s.build.w → order.Perm (List.range s.build.nw) →
    order.foldl (fun t j => t.writeWord (indexOf (slotOffset r + 4 * j)) (BitVec.ofNat 32 (v / 2 ^ (32 * j)))) s =
      { s with regs := s.regs.set r v }

/-- R67, R72: a word written while idle reads back, and a write changes no word but its own, and STATUS. -/
def Obligations.WrittenWordReadsBackAndOthersStay : Prop :=
  ∀ (s : State) (i : WordIndex) (v : Word),
    (∀ r j, s.status.busy = false → locate s.build i = .operand r j → (s.writeWord i v).readWord i = v) ∧
    (∀ k, k ≠ i → locate s.build k ≠ .status → (s.writeWord i v).readWord k = s.readWord k)

/-- R68: while idle, the same write of any location but CMD once more changes nothing. -/
def Obligations.RepeatedWritesOtherThanCmdChangeNothing : Prop :=
  ∀ (s : State) (i : WordIndex) (v : Word), s.status.busy = false → locate s.build i ≠ .cmd →
    (s.writeWord i v).writeWord i v = s.writeWord i v

/-- R68, R216: a read, busy or idle, answers the word and changes nothing of the block. -/
def Obligations.ReadsChangeNothingOfTheBlock : Prop :=
  ∀ (s : State) (i : WordIndex) (es : List Input), s.env.inputs = .access (.read i) :: es →
    NextSatisfies (step s) (fun t => t.env.answer = some (s.readWord i) ∧ t.regs = s.regs ∧ t.status = s.status ∧
      t.ie = s.ie ∧ t.latch = s.latch ∧ t.build = s.build ∧ ∀ k, t.readWord k = s.readWord k)

/-- R65: reserved offsets, reserved words of the slots and reserved bits, busy or idle; and no access is an error. -/
def Obligations.ReservedLocationsReadZeroAndIgnoreWrites : Prop :=
  (∀ (s : State) (o : Nat), o % 4 = 0 →
    (0x018 ≤ o ∧ o < 0x040) ∨ (0x100 ≤ o ∧ o < 0x400) ∨
      (∃ base j, (base = 0x040 ∨ base = 0x080 ∨ base = 0x0C0 ∨ ∃ i, i < 16 ∧ base = 0x400 + 0x40 * i) ∧
        s.build.nw ≤ j ∧ j < 16 ∧ o = base + 4 * j) →
    s.readWord (indexOf o) = 0#32 ∧ ∀ v, s.writeWord (indexOf o) v = s) ∧
  (∀ (s : State) (v w : Word), v.getLsbD 0 = w.getLsbD 0 → s.writeWord (indexOf 0x008) v = s.writeWord (indexOf 0x008) w) ∧
  (∀ (s : State) (v w : Word), v.getLsbD 1 = w.getLsbD 1 → v.getLsbD 3 = w.getLsbD 3 →
    s.writeWord (indexOf 0x00C) v = s.writeWord (indexOf 0x00C) w) ∧
  (∀ (s : State) (v w : Word), v.extractLsb' 0 8 = w.extractLsb' 0 8 →
    s.writeWord (indexOf 0x014) v = s.writeWord (indexOf 0x014) w) ∧
  (∀ s : State, (s.readWord (indexOf 0x008)).extractLsb' 1 31 = 0#31 ∧
    (s.readWord (indexOf 0x00C)).extractLsb' 4 4 = 0#4 ∧ (s.readWord (indexOf 0x00C)).extractLsb' 12 20 = 0#20 ∧
    (s.readWord (indexOf 0x014)).extractLsb' 8 24 = 0#24) ∧
  (∀ (s : State) (a : Access) (es : List Input), s.env.inputs = .access a :: es → ∃ t, step s = .next t)

/-- R215: writes while busy: CMD, PINF and the words the operand registers have are discarded and set WDROP; CTRL and STATUS
writes are performed; ID, PARAM and reserved locations are ignored. -/
def Obligations.WritesWhileBusyAreDroppedOrPerformed : Prop :=
  ∀ (s : State) (i : WordIndex) (v : Word), s.status.busy = true →
    (locate s.build i = .cmd ∨ locate s.build i = .pinf ∨ (∃ r j, locate s.build i = .operand r j) →
      s.writeWord i v = { s with status := { s.status with wdrop := true } }) ∧
    (locate s.build i = .ctrl → s.writeWord i v = { s with ie := v.getLsbD 0 }) ∧
    (locate s.build i = .status → (s.writeWord i v).status.wdrop = (s.status.wdrop && !v.getLsbD 3) ∧
      (s.writeWord i v).status.done = (s.status.done && !v.getLsbD 1) ∧ (s.writeWord i v).regs = s.regs) ∧
    (locate s.build i = .id ∨ locate s.build i = .param ∨ locate s.build i = .reserved → s.writeWord i v = s)

/-! ## Status bits and the interrupt -/

/-- R190: the interrupt line: its level, the three ways it is cleared, what raises no interrupt, and reset. -/
def Obligations.IrqIsDoneAndEnable : Prop :=
  (∀ s : State, s.irq = (s.status.done && s.ie)) ∧
  (∀ (s : State) (v : Word), v.getLsbD 1 = true → (s.writeWord (indexOf 0x00C) v).irq = false) ∧
  (∀ (s : State) (v : Word), v.getLsbD 0 = false → (s.writeWord (indexOf 0x008) v).irq = false) ∧
  (∀ (s : State) (c : Word), s.status.busy = false → (s.writeWord (indexOf 0x010) c).irq = false) ∧
  (∀ (s t : State) (l : Latch), s.latch = some l → l.remaining = 0 → s.clock = .next t → t.irq = s.ie) ∧
  (∀ (s : State) (wdrop : Bool) (err : BitVec 4),
    { s with status := { s.status with wdrop := wdrop, err := err } }.irq = s.irq) ∧
  (∀ b : Build, (State.resetFor b).irq = false)

/-- R191: a completion in the same clock as a W1C write of DONE: DONE = 1, and irq follows it. -/
def Obligations.CompletionWinsOverClearingDone : Prop :=
  ∀ (s : State) (l : Latch) (v : Word) (es : List Input), s.status.busy = true → s.latch = some l → l.remaining = 0 →
    s.env.inputs = .accessInClock (.write (indexOf 0x00C) v) :: es →
    NextSatisfies (step s) (fun t => t.status.busy = false ∧ t.status.done = true ∧ t.irq = s.ie)

/-- R26, R171: over all steps: VALID changes only by reset or by the completion of a PVERIFY without error. (Latch: log
8.) -/
def Obligations.ValidChangesOnlyByVerifyOrReset : Prop :=
  ∀ s t : State, s.Inv → step s = .next t → t.status.valid ≠ s.status.valid →
    s.env.inputs.head? = some .reset ∨
    ∃ l s1, s.latch = some l ∧ l.remaining = 0 ∧ decode l.word = .ok (.pverify s1) ∧ t.status.err = 0#4 ∧
      t.status.done = true

/-- R26, R27, R180, R183, R215: over all steps: who sets and who clears BUSY, DONE and WDROP, and when ERR changes. (VALID:
ValidChangesOnlyByVerifyOrReset.) The premise's clause on BUSY and the latch is log 8's. -/
def Obligations.StatusBitsHaveOnlyTheirProducers : Prop :=
  ∀ s t : State, s.Inv → step s = .next t →
    let reset : Prop := s.env.inputs.head? = some .reset
    let writes : WordIndex → Word → Prop := fun i v => ∃ es,
      s.env.inputs = .access (.write i v) :: es ∨ s.env.inputs = .accessInClock (.write i v) :: es
    let completes : Prop := t.status.busy = false ∧ t.status.done = true ∧ ∃ l, s.latch = some l ∧ l.remaining = 0
    (s.status.busy = false → t.status.busy = true → ∃ i c, locate s.build i = .cmd ∧ writes i c) ∧
    (s.status.busy = true → t.status.busy = false → reset ∨ completes) ∧
    (s.status.done = false → t.status.done = true → s.status.busy = true ∧ completes) ∧
    (s.status.done = true → t.status.done = false → reset ∨ ∃ i v, writes i v ∧
      (locate s.build i = .cmd ∧ s.status.busy = false ∨ locate s.build i = .status ∧ v.getLsbD 1 = true)) ∧
    (s.status.wdrop = false → t.status.wdrop = true → s.status.busy = true ∧ ∃ i v, writes i v ∧
      (locate s.build i = .cmd ∨ locate s.build i = .pinf ∨ ∃ r j, locate s.build i = .operand r j)) ∧
    (s.status.wdrop = true → t.status.wdrop = false → reset ∨ ∃ i v, writes i v ∧
      locate s.build i = .status ∧ v.getLsbD 3 = true) ∧
    (t.status.err ≠ s.status.err → reset ∨ completes)

/-! ## The loop of PMUL -/

/-- R160: the loop of scalar multiplication, for every modulus and from every running point and result: it starts from the
point, with the result the point or infinity by the scalar's lowest bit; each turn first doubles the running point and then, if
the bit is 1, adds it to the result, the result being the first operand; the first failure ends it. The loop's bound `fuel` makes
no difference once it covers the scalar's bits. -/
def Obligations.ScalarLoopDoublesThenAddsToTheResult : Prop :=
  ∀ a m : Nat,
    (∀ k, smul k .inf a m = .ok .inf) ∧
    (∀ k x y fuel, k / 2 < 2 ^ fuel →
      smul k (.aff x y) a m = smulLoop a m fuel (.aff x y) (if k % 2 = 1 then .aff x y else .inf) (k / 2)) ∧
    (∀ fuel v result, smulLoop a m fuel v result 0 = .ok result) ∧
    ∀ fuel k v result, 0 < k →
      (∀ e, dbl v a m = .error e → smulLoop a m (fuel + 1) v result k = .error e) ∧
      (∀ v', dbl v a m = .ok v' →
        (k % 2 = 0 → smulLoop a m (fuel + 1) v result k = smulLoop a m fuel v' result (k / 2)) ∧
        (k % 2 = 1 →
          (∀ r, add result v' a m = .ok r → smulLoop a m (fuel + 1) v result k = smulLoop a m fuel v' r (k / 2)) ∧
          (∀ e, add result v' a m = .error e → smulLoop a m (fuel + 1) v result k = .error e)))
end

