-- ==== Sys2Proof/Laws/State.lean ====
section
/-! SUPPORT. Laws/State.lean: one lemma per field per update of the state, each true by rfl, so that no later proof unfolds a
record update. -/

namespace Sys2Proof.Machine

/-! ## Reset -/

@[simp] theorem resetFor_build (b : Build) : (State.resetFor b).build = b := rfl
@[simp] theorem resetFor_regs (b : Build) : (State.resetFor b).regs = Regs.reset := rfl
@[simp] theorem resetFor_ie (b : Build) : (State.resetFor b).ie = false := rfl
@[simp] theorem resetFor_status (b : Build) : (State.resetFor b).status = Status.reset := rfl
@[simp] theorem resetFor_latch (b : Build) : (State.resetFor b).latch = none := rfl
@[simp] theorem resetFor_env (b : Build) : (State.resetFor b).env = Env.reset := rfl
@[simp] theorem resetEvent_build (s : State) : s.resetEvent.build = s.build := rfl
@[simp] theorem resetEvent_regs (s : State) : s.resetEvent.regs = Regs.reset := rfl
@[simp] theorem resetEvent_ie (s : State) : s.resetEvent.ie = false := rfl
@[simp] theorem resetEvent_status (s : State) : s.resetEvent.status = Status.reset := rfl
@[simp] theorem resetEvent_latch (s : State) : s.resetEvent.latch = none := rfl
@[simp] theorem resetEvent_env (s : State) : s.resetEvent.env = s.env := rfl

/-! ## Completion without error -/

@[simp] theorem commit_build (s : State) (r : Regs) (v : Bool) : (s.commit r v).build = s.build := rfl
@[simp] theorem commit_regs (s : State) (r : Regs) (v : Bool) : (s.commit r v).regs = r := rfl
@[simp] theorem commit_ie (s : State) (r : Regs) (v : Bool) : (s.commit r v).ie = s.ie := rfl
@[simp] theorem commit_latch (s : State) (r : Regs) (v : Bool) : (s.commit r v).latch = none := rfl
@[simp] theorem commit_env (s : State) (r : Regs) (v : Bool) : (s.commit r v).env = s.env := rfl
@[simp] theorem commit_busy (s : State) (r : Regs) (v : Bool) : (s.commit r v).status.busy = false := rfl
@[simp] theorem commit_done (s : State) (r : Regs) (v : Bool) : (s.commit r v).status.done = true := rfl
@[simp] theorem commit_valid (s : State) (r : Regs) (v : Bool) : (s.commit r v).status.valid = v := rfl
@[simp] theorem commit_wdrop (s : State) (r : Regs) (v : Bool) :
    (s.commit r v).status.wdrop = s.status.wdrop := rfl
@[simp] theorem commit_err (s : State) (r : Regs) (v : Bool) : (s.commit r v).status.err = 0#4 := rfl

/-! ## Error completion -/

@[simp] theorem raise_build (s : State) (e : ErrCode) : (s.raise e).build = s.build := rfl
@[simp] theorem raise_regs (s : State) (e : ErrCode) : (s.raise e).regs = s.regs := rfl
@[simp] theorem raise_ie (s : State) (e : ErrCode) : (s.raise e).ie = s.ie := rfl
@[simp] theorem raise_latch (s : State) (e : ErrCode) : (s.raise e).latch = none := rfl
@[simp] theorem raise_env (s : State) (e : ErrCode) : (s.raise e).env = s.env := rfl
@[simp] theorem raise_busy (s : State) (e : ErrCode) : (s.raise e).status.busy = false := rfl
@[simp] theorem raise_done (s : State) (e : ErrCode) : (s.raise e).status.done = true := rfl
@[simp] theorem raise_valid (s : State) (e : ErrCode) : (s.raise e).status.valid = s.status.valid := rfl
@[simp] theorem raise_wdrop (s : State) (e : ErrCode) : (s.raise e).status.wdrop = s.status.wdrop := rfl
@[simp] theorem raise_err (s : State) (e : ErrCode) : (s.raise e).status.err = e.code := rfl

/-! ## Acceptance -/

@[simp] theorem acceptWith_build (s : State) (c : Word) (n : Nat) : (s.acceptWith c n).build = s.build := rfl
@[simp] theorem acceptWith_regs (s : State) (c : Word) (n : Nat) : (s.acceptWith c n).regs = s.regs := rfl
@[simp] theorem acceptWith_ie (s : State) (c : Word) (n : Nat) : (s.acceptWith c n).ie = s.ie := rfl
@[simp] theorem acceptWith_env (s : State) (c : Word) (n : Nat) : (s.acceptWith c n).env = s.env := rfl
@[simp] theorem acceptWith_latch (s : State) (c : Word) (n : Nat) :
    (s.acceptWith c n).latch = some { word := c, snap := s.regs, remaining := n } := rfl
@[simp] theorem acceptWith_busy (s : State) (c : Word) (n : Nat) : (s.acceptWith c n).status.busy = true := rfl
@[simp] theorem acceptWith_done (s : State) (c : Word) (n : Nat) : (s.acceptWith c n).status.done = false := rfl
@[simp] theorem acceptWith_valid (s : State) (c : Word) (n : Nat) :
    (s.acceptWith c n).status.valid = s.status.valid := rfl
@[simp] theorem acceptWith_wdrop (s : State) (c : Word) (n : Nat) :
    (s.acceptWith c n).status.wdrop = s.status.wdrop := rfl
@[simp] theorem acceptWith_err (s : State) (c : Word) (n : Nat) :
    (s.acceptWith c n).status.err = s.status.err := rfl

/-! ## W1C and dropped writes -/

@[simp] theorem acknowledge_build (s : State) (v : Word) : (s.acknowledge v).build = s.build := rfl
@[simp] theorem acknowledge_regs (s : State) (v : Word) : (s.acknowledge v).regs = s.regs := rfl
@[simp] theorem acknowledge_ie (s : State) (v : Word) : (s.acknowledge v).ie = s.ie := rfl
@[simp] theorem acknowledge_latch (s : State) (v : Word) : (s.acknowledge v).latch = s.latch := rfl
@[simp] theorem acknowledge_env (s : State) (v : Word) : (s.acknowledge v).env = s.env := rfl
@[simp] theorem acknowledge_busy (s : State) (v : Word) : (s.acknowledge v).status.busy = s.status.busy := rfl
@[simp] theorem acknowledge_done (s : State) (v : Word) :
    (s.acknowledge v).status.done = (s.status.done && !v.getLsbD 1) := rfl
@[simp] theorem acknowledge_valid (s : State) (v : Word) : (s.acknowledge v).status.valid = s.status.valid := rfl
@[simp] theorem acknowledge_wdrop (s : State) (v : Word) :
    (s.acknowledge v).status.wdrop = (s.status.wdrop && !v.getLsbD 3) := rfl
@[simp] theorem acknowledge_err (s : State) (v : Word) : (s.acknowledge v).status.err = s.status.err := rfl
@[simp] theorem dropWrite_build (s : State) : s.dropWrite.build = s.build := rfl
@[simp] theorem dropWrite_regs (s : State) : s.dropWrite.regs = s.regs := rfl
@[simp] theorem dropWrite_ie (s : State) : s.dropWrite.ie = s.ie := rfl
@[simp] theorem dropWrite_latch (s : State) : s.dropWrite.latch = s.latch := rfl
@[simp] theorem dropWrite_env (s : State) : s.dropWrite.env = s.env := rfl
@[simp] theorem dropWrite_busy (s : State) : s.dropWrite.status.busy = s.status.busy := rfl
@[simp] theorem dropWrite_done (s : State) : s.dropWrite.status.done = s.status.done := rfl
@[simp] theorem dropWrite_valid (s : State) : s.dropWrite.status.valid = s.status.valid := rfl
@[simp] theorem dropWrite_wdrop (s : State) : s.dropWrite.status.wdrop = true := rfl
@[simp] theorem dropWrite_err (s : State) : s.dropWrite.status.err = s.status.err := rfl

/-! ## The operand registers -/

@[simp] theorem setF_m (r : Regs) (i : Fin 16) (v : Nat) : (r.setF i v).m = r.m := rfl
@[simp] theorem setF_a (r : Regs) (i : Fin 16) (v : Nat) : (r.setF i v).a = r.a := rfl
@[simp] theorem setF_b (r : Regs) (i : Fin 16) (v : Nat) : (r.setF i v).b = r.b := rfl
@[simp] theorem setF_pinf (r : Regs) (i : Fin 16) (v : Nat) : (r.setF i v).pinf = r.pinf := rfl
@[simp] theorem setInf_f (r : Regs) (n : Fin 8) (v : Bool) : (r.setInf n v).f = r.f := rfl
@[simp] theorem setInf_m (r : Regs) (n : Fin 8) (v : Bool) : (r.setInf n v).m = r.m := rfl
@[simp] theorem setInf_a (r : Regs) (n : Fin 8) (v : Bool) : (r.setInf n v).a = r.a := rfl
@[simp] theorem setInf_b (r : Regs) (n : Fin 8) (v : Bool) : (r.setInf n v).b = r.b := rfl
@[simp] theorem setInf_getF (r : Regs) (n : Fin 8) (v : Bool) (i : Fin 16) : (r.setInf n v).getF i = r.getF i := rfl
@[simp] theorem setF_getInf (r : Regs) (i : Fin 16) (v : Nat) (n : Fin 8) : (r.setF i v).getInf n = r.getInf n := rfl

/-! ## Coming events -/

@[simp] theorem withInputs_build (s : State) (es : List Input) : (s.withInputs es).build = s.build := rfl
@[simp] theorem withInputs_regs (s : State) (es : List Input) : (s.withInputs es).regs = s.regs := rfl
@[simp] theorem withInputs_ie (s : State) (es : List Input) : (s.withInputs es).ie = s.ie := rfl
@[simp] theorem withInputs_status (s : State) (es : List Input) : (s.withInputs es).status = s.status := rfl
@[simp] theorem withInputs_latch (s : State) (es : List Input) : (s.withInputs es).latch = s.latch := rfl
@[simp] theorem withInputs_inputs (s : State) (es : List Input) : (s.withInputs es).env.inputs = es := rfl
@[simp] theorem withInputs_sources (s : State) (es : List Input) : (s.withInputs es).sources = s.sources := rfl
@[simp] theorem withInputs_withInputs (s : State) (es es' : List Input) :
    (s.withInputs es).withInputs es' = s.withInputs es' := rfl

end Sys2Proof.Machine
end

