-- ==== Sys2Proof/Laws/Arith.lean ====
section
/-! SUPPORT. Laws/Arith.lean: what the arithmetic helpers are, in Mathlib's terms. -/

namespace Sys2Proof.Machine

theorem residue_lt (x : Int) {m : Nat} (h : 0 < m) : residue x m < m := by
  have h1 := Int.emod_lt_of_pos x (by exact_mod_cast h : (0 : Int) < m)
  have h2 := Int.emod_nonneg x (by omega : (m : Int) ≠ 0)
  unfold residue
  omega

/-- The residue as an integer (00_scope.md R9). -/
theorem residue_cast (x : Int) {m : Nat} (h : 0 < m) : (residue x m : Int) = x % m := by
  have h2 := Int.emod_nonneg x (by omega : (m : Int) ≠ 0)
  unfold residue
  omega

/-- The residue in the ring of integers mod m. -/
theorem residue_zmod (x : Int) (m : Nat) (h : 0 < m) : ((residue x m : Nat) : ZMod m) = (x : ZMod m) := by
  have := congrArg (Int.cast : Int → ZMod m) (residue_cast x h)
  simpa using this

theorem mulmod_lt (x y : Nat) {m : Nat} (h : 0 < m) : mulmod x y m < m := Nat.mod_lt _ h

theorem mulmod_zmod (x y m : Nat) : ((mulmod x y m : Nat) : ZMod m) = (x : ZMod m) * (y : ZMod m) := by
  simp [mulmod]

@[simp] theorem bitLength_zero : bitLength 0 = 0 := rfl

theorem lt_two_pow_bitLength (e : Nat) : e < 2 ^ bitLength e := by
  unfold bitLength
  split
  · omega
  · exact Nat.lt_log2_self

theorem chordPoint_reduced (c x1 y1 x2 : Nat) {m : Nat} (h : 0 < m) : (chordPoint c x1 y1 x2 m).Reduced m :=
  ⟨residue_lt _ h, residue_lt _ h⟩

/-- The loop of R102, modulo m: acc · v^e. -/
theorem powLoop_some (b m : Nat) (f v acc e : Nat) (he : e < 2 ^ f) :
    powLoop b m f (some v) acc e ≡ acc * v ^ e [MOD m] := by
  induction f generalizing v acc e with
  | zero => simp at he; subst he; simp [powLoop]; rfl
  | succ f ih =>
    unfold powLoop
    split
    · rename_i h; subst h; simp; rfl
    · simp only [Option.getD_some]
      have he' : e / 2 < 2 ^ f := by rw [pow_succ] at he; omega
      refine (ih _ _ _ he').trans ?_
      have h1 : (mulmod v v m) ^ (e/2) ≡ (v * v) ^ (e/2) [MOD m] := (Nat.mod_modEq _ _).pow _
      have h2 : (v*v)^(e/2) = v ^ (2*(e/2)) := by rw [← pow_two, ← pow_mul]
      split
      · rename_i ho
        refine ((Nat.mod_modEq (acc*v) m).mul h1).trans ?_
        rw [h2, mul_assoc, ← pow_succ', show 2*(e/2)+1 = e by omega]
      · rename_i ho
        refine ((Nat.ModEq.refl acc).mul h1).trans ?_
        rw [h2, show 2*(e/2) = e by omega]

/-- What the loop of R102 leaves is a residue, or the initial 1. -/
theorem powLoop_lt (b m : Nat) (hm : 0 < m) (f : Nat) (v : Option Nat) (acc e : Nat) (h : acc < m ∨ acc = 1) :
    powLoop b m f v acc e < m ∨ powLoop b m f v acc e = 1 := by
  induction f generalizing v acc e with
  | zero => simpa [powLoop]
  | succ f ih =>
    unfold powLoop
    split
    · exact h
    · apply ih
      split
      · exact .inl (mulmod_lt _ _ hm)
      · exact h

/-- Once the running square is there, the loop of R102 leaves a residue. -/
theorem powLoop_lt_of_running (b m : Nat) (hm : 0 < m) (f v acc e : Nat) (he : e < 2 ^ f) (h : acc < m ∨ e ≠ 0) :
    powLoop b m f (some v) acc e < m := by
  induction f generalizing v acc e with
  | zero => simp at he; subst he; simp at h; simpa [powLoop]
  | succ f ih =>
    unfold powLoop
    split
    · rename_i h0; subst h0; simpa using h
    · have he' : e / 2 < 2 ^ f := by rw [pow_succ] at he; omega
      apply ih _ _ _ he'
      split
      · exact .inl (mulmod_lt _ _ hm)
      · right; omega

/-- R102 in closed form. -/
theorem powmod_eq (b e m : Nat) (hm : 0 < m) : powmod b e m = if e = 0 then 1 else b ^ e % m := by
  unfold powmod
  split
  · rename_i h; subst h; simp [bitLength, powLoop]
  · rename_i h
    have hlt := lt_two_pow_bitLength e
    obtain ⟨f, hf⟩ : ∃ f, bitLength e = f + 1 := ⟨bitLength e - 1, by
      have : bitLength e ≠ 0 := by unfold bitLength; simp [h]
      omega⟩
    have hstep : powLoop b m (bitLength e) none 1 e = powLoop b m (bitLength e) (some (b % m)) 1 e := by
      rw [hf]; simp [powLoop]
    rw [hstep]
    have h1 := powLoop_some b m (bitLength e) (b % m) 1 e hlt
    have h2 := powLoop_lt_of_running b m hm (bitLength e) (b % m) 1 e hlt (.inr h)
    rw [one_mul] at h1
    have h3 : (b % m) ^ e ≡ b ^ e [MOD m] := (Nat.mod_modEq _ _).pow _
    have := h1.trans h3
    unfold Nat.ModEq at this
    rwa [Nat.mod_eq_of_lt h2] at this

end Sys2Proof.Machine
end

