-- ==== Sys2Proof/Laws/Operands.lean ====
section
/-! SUPPORT. Laws/Operands.lean: reading a register back after a write, for field registers, infinity flags and points. -/

namespace Sys2Proof.Machine

@[simp] theorem setF_getF_same (r : Regs) (i : Fin 16) (v : Nat) : (r.setF i v).getF i = v := by
  simp [Regs.getF, Regs.setF]

theorem setF_getF_ne (r : Regs) {i j : Fin 16} (v : Nat) (h : j ≠ i) : (r.setF i v).getF j = r.getF j := by
  have h' : i.val ≠ j.val := fun e => h (Fin.ext e.symm)
  simp [Regs.getF, Regs.setF, h']

@[simp] theorem setInf_getInf_same (r : Regs) (n : Fin 8) (v : Bool) : (r.setInf n v).getInf n = v := by
  have hn := n.isLt
  cases v <;> simp [Regs.getInf, Regs.setInf, hn]

theorem setInf_getInf_ne (r : Regs) {n k : Fin 8} (v : Bool) (h : k ≠ n) : (r.setInf n v).getInf k = r.getInf k := by
  have hk := k.isLt
  have h' : k.val ≠ n.val := fun e => h (Fin.ext e)
  have hlt : k.val < n.val ∨ ¬ k.val < n.val := em _
  have hz : ¬ k.val < n.val → k.val - n.val ≠ 0 := by omega
  cases v <;> rcases hlt with hlt | hlt <;>
    simp [Regs.getInf, Regs.setInf, hk, hlt, hz]

@[simp] theorem fieldIndex_val (i : RegField) : (fieldIndex i).val = i.toNat := rfl

theorem pointIndex_eq_some_iff (n : RegField) (k : Fin 8) : pointIndex n = some k ↔ n.toNat = k.val := by
  unfold pointIndex
  split
  · simp [Fin.ext_iff]
  · have := k.isLt
    constructor
    · simp
    · omega

theorem pointIndex_eq_none_iff (n : RegField) : pointIndex n = none ↔ isPointField n = false := by
  revert n; decide

@[simp] theorem pointIndex_pointField (n : Fin 8) : pointIndex (pointField n) = some n := by
  revert n; decide

theorem xIndex_ne_yIndex (n k : Fin 8) : xIndex n ≠ yIndex k := by
  revert n k; decide

@[simp] theorem wrpt_m (r : Regs) (n : Fin 8) (p : Pt) : (r.wrpt n p).m = r.m := by cases p <;> rfl
@[simp] theorem wrpt_a (r : Regs) (n : Fin 8) (p : Pt) : (r.wrpt n p).a = r.a := by cases p <;> rfl
@[simp] theorem wrpt_b (r : Regs) (n : Fin 8) (p : Pt) : (r.wrpt n p).b = r.b := by cases p <;> rfl

/-- Everything `wrpt` does (41_curve_point.md R131). -/
theorem wrpt_spec (r : Regs) (n : Fin 8) (p : Pt) :
    (r.wrpt n p).getF (xIndex n) = p.storedX ∧
    (r.wrpt n p).getF (yIndex n) = p.storedY ∧
    (r.wrpt n p).getInf n = p.isInf ∧
    (∀ j, j ≠ xIndex n → j ≠ yIndex n → (r.wrpt n p).getF j = r.getF j) ∧
    (∀ k, k ≠ n → (r.wrpt n p).getInf k = r.getInf k) := by
  have hxy := xIndex_ne_yIndex n n
  cases p <;>
    refine ⟨?_, ?_, ?_, fun j hx hy => ?_, fun k hk => ?_⟩ <;>
    simp [Regs.wrpt, Pt.storedX, Pt.storedY, Pt.isInf, setF_getF_ne, setInf_getInf_ne, *]

/-- A point written and read back, if its coordinates are residues (41_curve_point.md R130, R131). -/
theorem rdpt_wrpt (r : Regs) (n : Fin 8) (p : Pt) (h : p.Reduced r.m) : (r.wrpt n p).rdpt n = p := by
  obtain ⟨hx, hy, hinf, -, -⟩ := wrpt_spec r n p
  unfold Regs.rdpt
  rw [hx, hy, hinf]
  cases p with
  | inf => simp [Pt.isInf]
  | aff x y => simp [Pt.storedX, Pt.storedY, Pt.isInf, Nat.mod_eq_of_lt h.1, Nat.mod_eq_of_lt h.2]

end Sys2Proof.Machine
end

