-- ==== Sys2Proof/Laws/Commands.lean ====
section
/-! SUPPORT. Laws/Commands.lean: everything a completion can do, once for each shared completion, and the one inversion
lemma of `exec`. -/

namespace Sys2Proof.Machine

/-- A commit is a completion with code 0. -/
theorem commit_completedWith (s : State) (r : Regs) (valid : Bool) (hm : r.m = s.regs.m) (ha : r.a = s.regs.a)
    (hb : r.b = s.regs.b) : CompletedWith s (s.commit r valid) 0#4 valid :=
  ⟨rfl, rfl, rfl, rfl, rfl, rfl, rfl, hm, ha, hb, rfl, rfl⟩

/-- An error completion writes STATUS only. -/
theorem raise_errorResult (s : State) (e : ErrCode) : ErrorResult s (s.raise e) e :=
  ⟨⟨rfl, rfl, rfl, rfl, rfl, rfl, rfl, rfl, rfl, rfl, rfl, rfl⟩, rfl⟩

theorem finishField_ok (s : State) (d : RegField) (v : Nat) :
    FieldResult s (s.finishField d (.ok v)) (fieldIndex d) v where
  completed := commit_completedWith s _ _ rfl rfl rfl
  result := setF_getF_same _ _ _
  others _ h := setF_getF_ne _ _ h
  pinf := rfl

theorem finishField_error (s : State) (d : RegField) (e : ErrCode) :
    ErrorResult s (s.finishField d (.error e)) e := raise_errorResult s e

theorem finishPoint_ok (s : State) (d : Fin 8) (p : Pt) : PointResult s (s.finishPoint d (.ok p)) d p := by
  obtain ⟨hx, hy, hinf, ho, hoi⟩ := wrpt_spec s.regs d p
  exact ⟨commit_completedWith s _ _ (wrpt_m _ _ _) (wrpt_a _ _ _) (wrpt_b _ _ _), hx, hy, hinf, ho, hoi⟩

theorem finishPoint_error (s : State) (d : Fin 8) (e : ErrCode) :
    ErrorResult s (s.finishPoint d (.error e)) e := raise_errorResult s e

theorem finishVerify_error (s : State) (e : ErrCode) : ErrorResult s (s.finishVerify (.error e)) e :=
  raise_errorResult s e

/-- Everything a command can do when it completes: commit a field register, commit a point register, set VALID, or
raise an error (60_exceptions.md R183, R184). -/
inductive Completes (s : State) : Instr → State → Prop where
  | modmul (d s1 s2 : RegField) (v : Nat) (h : modmulResult s.sources s1 s2 = .ok v) :
      Completes s (.modmul d s1 s2) (s.commit (s.regs.setF (fieldIndex d) v) s.status.valid)
  | modpow (d s1 s2 : RegField) (v : Nat) (h : modpowResult s.sources s1 s2 = .ok v) :
      Completes s (.modpow d s1 s2) (s.commit (s.regs.setF (fieldIndex d) v) s.status.valid)
  | modinv (d s1 : RegField) (v : Nat) (h : modinvResult s.sources s1 = .ok v) :
      Completes s (.modinv d s1) (s.commit (s.regs.setF (fieldIndex d) v) s.status.valid)
  | pdbl (d s1 : RegField) (pd ps : Fin 8) (p : Pt) (hd : pointIndex d = some pd) (hs : pointIndex s1 = some ps)
      (h : pdblResult s.sources ps = .ok p) : Completes s (.pdbl d s1) (s.commit (s.regs.wrpt pd p) s.status.valid)
  | padd (d s1 s2 : RegField) (pd self other : Fin 8) (p : Pt) (hd : pointIndex d = some pd)
      (hs : pointIndex s1 = some self) (ho : pointIndex s2 = some other) (h : paddResult s.sources self other = .ok p) :
      Completes s (.padd d s1 s2) (s.commit (s.regs.wrpt pd p) s.status.valid)
  | pmul (d s1 s2 : RegField) (pd ps : Fin 8) (p : Pt) (hd : pointIndex d = some pd) (hs : pointIndex s1 = some ps)
      (h : pmulResult s.sources ps s2 = .ok p) :
      Completes s (.pmul d s1 s2) (s.commit (s.regs.wrpt pd p) s.status.valid)
  | pverify (s1 : RegField) (ps : Fin 8) (t : Bool) (hs : pointIndex s1 = some ps)
      (h : pverifyResult s.sources ps = .ok t) : Completes s (.pverify s1) (s.commit s.regs t)
  | error (i : Instr) (e : ErrCode) : Completes s i (s.raise e)

/-- `exec` always answers a next state, and it is a completion of the command. -/
theorem exec_completes (i : Instr) (s : State) : ∃ t, exec i s = .next t ∧ Completes s i t := by
  have field : ∀ (i : Instr) (d : RegField) (r : Except ErrCode Nat),
      (∀ v, r = .ok v → Completes s i (s.commit (s.regs.setF (fieldIndex d) v) s.status.valid)) →
      Completes s i (s.finishField d r) := by
    intro i d r h
    cases r with
    | error e => exact .error i e
    | ok v => exact h v rfl
  have point : ∀ (i : Instr) (d : Fin 8) (r : Except ErrCode Pt),
      (∀ p, r = .ok p → Completes s i (s.commit (s.regs.wrpt d p) s.status.valid)) →
      Completes s i (s.finishPoint d r) := by
    intro i d r h
    cases r with
    | error e => exact .error i e
    | ok v => exact h v rfl
  cases i with
  | modmul d s1 s2 => exact ⟨_, rfl, field _ d _ fun v h => .modmul d s1 s2 v h⟩
  | modpow d s1 s2 => exact ⟨_, rfl, field _ d _ fun v h => .modpow d s1 s2 v h⟩
  | modinv d s1 => exact ⟨_, rfl, field _ d _ fun v h => .modinv d s1 v h⟩
  | pdbl d s1 =>
    simp only [exec, execPdbl]
    split
    · rename_i pd ps hd hs
      exact ⟨_, rfl, point _ pd _ fun p h => .pdbl d s1 pd ps p hd hs h⟩
    · exact ⟨_, rfl, .error _ _⟩
  | padd d s1 s2 =>
    simp only [exec, execPadd]
    split
    · rename_i pd self other hd hs ho
      exact ⟨_, rfl, point _ pd _ fun p h => .padd d s1 s2 pd self other p hd hs ho h⟩
    · exact ⟨_, rfl, .error _ _⟩
  | pmul d s1 s2 =>
    simp only [exec, execPmul]
    split
    · rename_i pd ps hd hs
      exact ⟨_, rfl, point _ pd _ fun p h => .pmul d s1 s2 pd ps p hd hs h⟩
    · exact ⟨_, rfl, .error _ _⟩
  | pverify s1 =>
    simp only [exec, execPverify]
    split
    · rename_i ps hs
      cases h : pverifyResult s.sources ps with
      | error e => exact ⟨_, rfl, .error _ e⟩
      | ok t => exact ⟨_, rfl, .pverify s1 ps t hs h⟩
    · exact ⟨_, rfl, .error _ _⟩

end Sys2Proof.Machine
end

