-- ==== Sys2Proof/Laws/Curve.lean ====
section
/-! SUPPORT. Laws/Curve.lean: what `dbl`, `add` and `smul` can answer (spec/41_curve_point.md, spec/42_curve_context.md),
and the point commands on operand fields that name point registers. -/

namespace Sys2Proof.Machine

theorem rdpt_of_affine (r : Regs) (n : Fin 8) (h : r.getInf n = false) :
    r.rdpt n = .aff (r.getF (xIndex n) % r.m) (r.getF (yIndex n) % r.m) := by
  simp [Regs.rdpt, h]

theorem rdpt_of_inf (r : Regs) (n : Fin 8) (h : r.getInf n = true) : r.rdpt n = .inf := by
  simp [Regs.rdpt, h]

theorem rdpt_reduced (r : Regs) (n : Fin 8) (h : 0 < r.m) : (r.rdpt n).Reduced r.m := by
  unfold Regs.rdpt
  split
  · trivial
  · exact ⟨Nat.mod_lt _ h, Nat.mod_lt _ h⟩

theorem stored_lt {p : Pt} {m : Nat} (hm : 0 < m) (h : p.Reduced m) : p.storedX < m ∧ p.storedY < m := by
  cases p
  · exact ⟨hm, hm⟩
  · exact h

/-- A doubled point has reduced coordinates. -/
theorem dbl_reduced {p q : Pt} {a m : Nat} (hm : 0 < m) (h : dbl p a m = .ok q) : q.Reduced m := by
  unfold dbl at h
  split at h
  · cases h; trivial
  · split at h
    · cases h; trivial
    · dsimp only at h
      split at h
      · cases h
      · cases h; exact chordPoint_reduced _ _ _ _ hm

/-- A sum of reduced points is reduced. -/
theorem add_reduced {p q r : Pt} {a m : Nat} (hm : 0 < m) (hp : p.Reduced m) (hq : q.Reduced m) (h : add p q a m = .ok r) :
    r.Reduced m := by
  unfold add at h
  split at h
  · cases h; exact hp
  · cases h; exact hq
  · split at h
    · split at h
      · exact dbl_reduced hm h
      · cases h; trivial
    · cases h; exact chordPoint_reduced _ _ _ _ hm

/-- The loop of R160 keeps coordinates reduced. -/
theorem smulLoop_reduced {a m : Nat} (hm : 0 < m) :
    ∀ f v res k q, v.Reduced m → res.Reduced m → smulLoop a m f v res k = .ok q → q.Reduced m := by
  intro f
  induction f with
  | zero => intro v res k q _ h h'; cases h'; exact h
  | succ f ih =>
    intro v res k q hv hr h
    unfold smulLoop at h
    split at h
    · cases h; exact hr
    · split at h
      · cases h
      · rename_i v' hv'
        have := dbl_reduced hm hv'
        split at h
        · split at h
          · cases h
          · rename_i r' hr'
            exact ih _ _ _ _ this (add_reduced hm hr this hr') h
        · exact ih _ _ _ _ this hr h

/-- A multiple of a reduced point is reduced. -/
theorem smul_reduced {k : Nat} {p q : Pt} {a m : Nat} (hm : 0 < m) (hp : p.Reduced m) (h : smul k p a m = .ok q) :
    q.Reduced m := by
  unfold smul at h
  split at h
  · cases h; trivial
  · refine smulLoop_reduced hm _ _ _ _ _ hp ?_ h
    split
    · exact hp
    · trivial

/-- Doubling fails with NONINV only, and over an even modulus only (60_exceptions.md R186). -/
theorem dbl_error {p : Pt} {a m : Nat} {e : ErrCode} (hp : p.Reduced m) (h : dbl p a m = .error e) :
    e = .noninv ∧ m % 2 = 0 := by
  unfold dbl at h
  split at h
  · cases h
  · split at h
    · cases h
    · rename_i x y hy
      dsimp only at h; split at h
      · rename_i hd
        cases h; refine ⟨rfl, ?_⟩
        have hlt : y < m := hp.2
        have hd' : m ∣ 2 * y := Nat.dvd_of_mod_eq_zero hd
        obtain ⟨k, hk⟩ := hd'
        have : k = 1 := by
          have h1 : 0 < k := by
            rcases Nat.eq_zero_or_pos k with rfl | h
            · omega
            · exact h
          have h2 : k < 2 := by
            by_contra hc
            have : m * 2 ≤ m * k := Nat.mul_le_mul_left _ (by omega)
            omega
          omega
        subst this; omega
      · cases h

/-- Addition fails only where its doubling does. -/
theorem add_error {p q : Pt} {a m : Nat} {e : ErrCode} (hp : p.Reduced m) (h : add p q a m = .error e) :
    e = .noninv ∧ m % 2 = 0 := by
  unfold add at h
  split at h
  · cases h
  · cases h
  · split at h
    · split at h
      · exact dbl_error hp h
      · cases h
    · cases h

/-- The loop of R160 fails only where a doubling does. -/
theorem smulLoop_error {a m : Nat} (hm : 0 < m) :
    ∀ f v res k e, v.Reduced m → res.Reduced m → smulLoop a m f v res k = .error e → e = .noninv ∧ m % 2 = 0 := by
  intro f
  induction f with
  | zero => intro v res k q _ h h'; cases h'
  | succ f ih =>
    intro v res k q hv hr h
    unfold smulLoop at h
    split at h
    · cases h
    · split at h
      · rename_i he; cases h; exact dbl_error hv he
      · rename_i v' hv'
        have := dbl_reduced hm hv'
        split at h
        · split at h
          · rename_i he; cases h; exact add_error hr he
          · rename_i r' hr'
            exact ih _ _ _ _ this (add_reduced hm hr this hr') h
        · exact ih _ _ _ _ this hr h

/-- Scalar multiplication fails only where a doubling does. -/
theorem smul_error {k : Nat} {p : Pt} {a m : Nat} {e : ErrCode} (hm : 0 < m) (hp : p.Reduced m) (h : smul k p a m = .error e) :
    e = .noninv ∧ m % 2 = 0 := by
  unfold smul at h
  split at h
  · cases h
  · refine smulLoop_error hm _ _ _ _ _ hp ?_ h
    split
    · exact hp
    · trivial

theorem exec_pdbl (pd ps : Fin 8) (s : State) :
    exec (.pdbl (pointField pd) (pointField ps)) s = .next (s.finishPoint pd (pdblResult s.sources ps)) := by
  simp [exec, execPdbl]

theorem exec_padd (pd p q : Fin 8) (s : State) :
    exec (.padd (pointField pd) (pointField p) (pointField q)) s =
      .next (s.finishPoint pd (paddResult s.sources p q)) := by
  simp [exec, execPadd]

theorem exec_pmul (pd p : Fin 8) (k : RegField) (s : State) :
    exec (.pmul (pointField pd) (pointField p) k) s = .next (s.finishPoint pd (pmulResult s.sources p k)) := by
  simp [exec, execPmul]

theorem exec_pverify (p : Fin 8) (s : State) :
    exec (.pverify (pointField p)) s = .next (s.finishVerify (pverifyResult s.sources p)) := by
  simp [exec, execPverify]

end Sys2Proof.Machine
end

