-- ==== Sys2Proof/Laws/PerInstr.lean ====
section
/-! SUPPORT. Laws/PerInstr.lean: one family of facts about each command as syntax: the opcode field of its word is the
opcode of its row (spec/30_encoding.md R84), and its reserved bits are 0 (R80). -/

namespace Sys2Proof.Laws.EncodedFields

/-- The opcode of a command's row (R84). -/
def opcode : Instr → BitVec 8
  | .modmul _ _ _ => 0x01#8
  | .modpow _ _ _ => 0x02#8
  | .modinv _ _ => 0x03#8
  | .pdbl _ _ => 0x10#8
  | .padd _ _ _ => 0x11#8
  | .pmul _ _ _ => 0x12#8
  | .pverify _ => 0x13#8

/-- The word of the command has its row's opcode and no reserved bit. -/
def Statement (i : Instr) : Prop := opcField (encode i) = opcode i ∧ rsvField (encode i) = 0#12

theorem commandWord_opc (opc : BitVec 8) (d s1 s2 : RegField) : opcField (commandWord opc d s1 s2) = opc := by
  apply BitVec.eq_of_getLsbD_eq
  intro i hi
  simp [opcField, commandWord, hi, show i < 32 by omega, show i < 16 by omega, show i < 12 by omega]

theorem commandWord_rsv (opc : BitVec 8) (d s1 s2 : RegField) : rsvField (commandWord opc d s1 s2) = 0#12 := by
  apply BitVec.eq_of_getLsbD_eq
  intro i hi
  have h2 : s2.getLsbD (20 + i - 16) = false := BitVec.getLsbD_of_ge _ _ (by omega)
  have h1 : s1.getLsbD (20 + i - 12) = false := BitVec.getLsbD_of_ge _ _ (by omega)
  have h0 : d.getLsbD (20 + i - 8) = false := BitVec.getLsbD_of_ge _ _ (by omega)
  have ho : opc.getLsbD (20 + i) = false := BitVec.getLsbD_of_ge _ _ (by omega)
  simp [rsvField, commandWord, h0, h1, h2, ho]

theorem modmul (d s1 s2 : RegField) : Statement (.modmul d s1 s2) := ⟨commandWord_opc _ _ _ _, commandWord_rsv _ _ _ _⟩
theorem modpow (d s1 s2 : RegField) : Statement (.modpow d s1 s2) := ⟨commandWord_opc _ _ _ _, commandWord_rsv _ _ _ _⟩
theorem modinv (d s1 : RegField) : Statement (.modinv d s1) := ⟨commandWord_opc _ _ _ _, commandWord_rsv _ _ _ _⟩
theorem pdbl (d s1 : RegField) : Statement (.pdbl d s1) := ⟨commandWord_opc _ _ _ _, commandWord_rsv _ _ _ _⟩
theorem padd (d s1 s2 : RegField) : Statement (.padd d s1 s2) := ⟨commandWord_opc _ _ _ _, commandWord_rsv _ _ _ _⟩
theorem pmul (d s1 s2 : RegField) : Statement (.pmul d s1 s2) := ⟨commandWord_opc _ _ _ _, commandWord_rsv _ _ _ _⟩
theorem pverify (s1 : RegField) : Statement (.pverify s1) := ⟨commandWord_opc _ _ _ _, commandWord_rsv _ _ _ _⟩

end Sys2Proof.Laws.EncodedFields
end

