-- ==== Sys2Proof/Laws/Encoding.lean ====
section
/-! SUPPORT. Laws/Encoding.lean: the fields of a command word, taken apart and put together (spec/30_encoding.md R80). -/

namespace Sys2Proof

/-- The operand fields of a command word are the operands it was built from. -/
theorem commandWord_fields (opc : BitVec 8) (d s1 s2 : RegField) :
    dField (commandWord opc d s1 s2) = d ∧ s1Field (commandWord opc d s1 s2) = s1 ∧
      s2Field (commandWord opc d s1 s2) = s2 := by
  refine ⟨?_, ?_, ?_⟩ <;> apply BitVec.eq_of_getLsbD_eq <;> intro i hi
  · simp [dField, commandWord, hi, show 8 + i < 32 by omega, show 8+i < 16 by omega, show 8+i < 12 by omega]
  · have h0 : d.getLsbD (12 + i - 8) = false := BitVec.getLsbD_of_ge _ _ (by omega)
    have ho : opc.getLsbD (12 + i) = false := BitVec.getLsbD_of_ge _ _ (by omega)
    simp [s1Field, commandWord, hi, h0, ho, show 12 + i < 32 by omega, show 12+i < 16 by omega]
  · have h1 : s1.getLsbD (16 + i - 12) = false := BitVec.getLsbD_of_ge _ _ (by omega)
    have h0 : d.getLsbD (16 + i - 8) = false := BitVec.getLsbD_of_ge _ _ (by omega)
    have ho : opc.getLsbD (16 + i) = false := BitVec.getLsbD_of_ge _ _ (by omega)
    simp [s2Field, commandWord, hi, h1,h0,ho, show 16 + i < 32 by omega]

/-- What the decoder answers for a word built from its fields (R84, R86). -/
theorem decode_commandWord (opc : BitVec 8) (d s1 s2 : RegField) : decode (commandWord opc d s1 s2) =
  if opc = 0x01#8 then .ok (.modmul d s1 s2)
  else if opc = 0x02#8 then .ok (.modpow d s1 s2)
  else if opc = 0x03#8 then checkFields [s2] [] (.modinv d s1)
  else if opc = 0x10#8 then checkFields [s2] [d, s1] (.pdbl d s1)
  else if opc = 0x11#8 then checkFields [] [d, s1, s2] (.padd d s1 s2)
  else if opc = 0x12#8 then checkFields [] [d, s1] (.pmul d s1 s2)
  else if opc = 0x13#8 then checkFields [d, s2] [s1] (.pverify s1)
  else .error (.reservedOpcode opc) := by
  obtain ⟨h1, h2, h3⟩ := commandWord_fields opc d s1 s2
  simp only [decode, h1, h2, h3, Laws.EncodedFields.commandWord_opc, Laws.EncodedFields.commandWord_rsv]
  simp

/-- When `checkFields` lets a command through. -/
theorem checkFields_eq_ok (u p : List RegField) (i i' : Instr) :
    checkFields u p i = .ok i' ↔ (∀ z ∈ u, z = 0#4) ∧ (∀ n ∈ p, isPointField n = true) ∧ i = i' := by
  unfold checkFields
  split
  · simp_all
  · split
    · simp_all
    · simp_all; intro; assumption

/-- A word with RSV = 0 is the word of its fields. -/
theorem commandWord_of_fields (w : Word) (h : rsvField w = 0#12) :
    commandWord (opcField w) (dField w) (s1Field w) (s2Field w) = w := by
  apply BitVec.eq_of_getLsbD_eq
  intro i hi
  have hr : ∀ k, k < 12 → w.getLsbD (20 + k) = false := by
    intro k hk
    have := congrArg (fun v => BitVec.getLsbD v k) h
    simpa [rsvField, hk] using this
  by_cases c1 : i < 8
  · simp [commandWord, opcField, dField, s1Field, s2Field, c1, show i < 12 by omega, show i < 16 by omega, hi]
  by_cases c2 : i < 12
  · simp [commandWord, opcField, dField, s1Field, s2Field, c1, c2, show i < 16 by omega, hi,
      show i - 8 < 4 by omega, show 8 + (i - 8) = i by omega]
  by_cases c3 : i < 16
  · simp [commandWord, opcField, dField, s1Field, s2Field, c1, c2, c3, hi,
      show i - 12 < 4 by omega, show ¬ i - 8 < 4 by omega, show 12 + (i - 12) = i by omega]
  by_cases c4 : i < 20
  · simp [commandWord, opcField, dField, s1Field, s2Field, c1, c2, c3, hi,
      show i - 16 < 4 by omega, show ¬ i - 8 < 4 by omega, show ¬ i - 12 < 4 by omega,
      show 16 + (i - 16) = i by omega]
  · have := hr (i - 20) (by omega)
    rw [show 20 + (i - 20) = i by omega] at this
    rw [this]
    simp [commandWord, opcField, dField, s1Field, s2Field, c1, c2, c3,
      show ¬ i - 16 < 4 by omega, show ¬ i - 8 < 4 by omega, show ¬ i - 12 < 4 by omega]

end Sys2Proof
end

