-- ==== Sys2Proof/Laws/Window.lean ====
section
/-! SUPPORT. Laws/Window.lean: the words of an operand register (spec/20_memory.md R63), and everything a host access can do
to the state. -/

namespace Sys2Proof.Machine

theorem replaceWord_lt {v j n : Nat} (x : Word) (hv : v < 2 ^ (32 * n)) (hj : j < n) :
    replaceWord v j x < 2 ^ (32 * n) := by
  obtain ⟨k, rfl⟩ : ∃ k, n = j + 1 + k := ⟨n - (j + 1), by omega⟩
  have hx : x.toNat < 2 ^ 32 := x.isLt
  have hA : 0 < 2 ^ (32 * j) := by positivity
  have hlow : v % 2 ^ (32 * j) < 2 ^ (32 * j) := Nat.mod_lt _ hA
  have hsplit : (2 : Nat) ^ (32 * (j + 1 + k)) = 2 ^ (32 * k) * 2 ^ (32 * (j + 1)) := by
    rw [← pow_add]; congr 1; ring
  have hhi : v / 2 ^ (32 * (j + 1)) < 2 ^ (32 * k) := by
    rw [Nat.div_lt_iff_lt_mul (by positivity), ← hsplit]; exact hv
  have hmul : (v / 2 ^ (32 * (j + 1)) + 1) * 2 ^ (32 * (j + 1)) ≤ 2 ^ (32 * k) * 2 ^ (32 * (j + 1)) :=
    Nat.mul_le_mul_right _ hhi
  have hB : (2 : Nat) ^ (32 * (j + 1)) = 2 ^ 32 * 2 ^ (32 * j) := by
    rw [← pow_add]; congr 1; ring
  have hxw : (x.toNat + 1) * 2 ^ (32 * j) ≤ 2 ^ 32 * 2 ^ (32 * j) := Nat.mul_le_mul_right _ hx
  unfold replaceWord
  rw [hsplit]
  rw [add_mul] at hmul hxw
  omega

/-- A host write changes, outside STATUS and the latch, at most the one register it names; here all it can do, by cases:
nothing, CTRL, STATUS, a dropped write, an acceptance, PINF, or one word of an operand register. -/
theorem writeWord_cases (s : State) (i : WordIndex) (v : Word) :
    s.writeWord i v = s ∨
    (locate s.build i = .ctrl ∧ s.writeWord i v = { s with ie := v.getLsbD 0 }) ∨
    (locate s.build i = .status ∧ s.writeWord i v = s.acknowledge v) ∨
    (s.status.busy = true ∧ s.writeWord i v = s.dropWrite) ∨
    (s.status.busy = false ∧ locate s.build i = .cmd ∧ s.writeWord i v = s.accept v) ∨
    (s.status.busy = false ∧ locate s.build i = .pinf ∧
      s.writeWord i v = { s with regs := { s.regs with pinf := v.extractLsb' 0 8 } }) ∨
    (s.status.busy = false ∧ ∃ r j, locate s.build i = .operand r j ∧ j < s.build.nw ∧
      s.writeWord i v = { s with regs := s.regs.set r (replaceWord (s.regs.get r) j v) }) := by
  have hnw : ∀ r j, locate s.build i = .operand r j → j < s.build.nw := by
    intro r j h
    unfold locate at h
    split at h
    · split at h
      · rename_i hlt; injection h with _ hj; exact hj ▸ hlt
      · cases h
    · rename_i hne
      exact absurd h (hne r j)
  unfold State.writeWord State.writeWhenIdle
  cases hl : locate s.build i <;> cases hb : s.status.busy <;> simp_all

/-- Acceptance, whatever delay it draws (60_exceptions.md R180): only the latch, BUSY, DONE, and the model's record of
latencies change. -/
theorem accept_spec (s : State) (c : Word) :
    ∃ n env, s.accept c = { s with env := env }.acceptWith c n ∧ env.inputs = s.env.inputs ∧
      env.answer = s.env.answer := by
  unfold State.accept
  split
  · exact ⟨_, _, rfl, rfl, rfl⟩
  · exact ⟨_, _, rfl, rfl, rfl⟩

@[simp] theorem accept_build (s : State) (c : Word) : (s.accept c).build = s.build := by
  obtain ⟨_, _, h, -, -⟩ := accept_spec s c
  rw [h]; rfl

@[simp] theorem accept_regs (s : State) (c : Word) : (s.accept c).regs = s.regs := by
  obtain ⟨_, _, h, -, -⟩ := accept_spec s c
  rw [h]; rfl

@[simp] theorem accept_ie (s : State) (c : Word) : (s.accept c).ie = s.ie := by
  obtain ⟨_, _, h, -, -⟩ := accept_spec s c
  rw [h]; rfl

@[simp] theorem accept_status (s : State) (c : Word) : (s.accept c).status = s.status.accepted := by
  obtain ⟨_, _, h, -, -⟩ := accept_spec s c
  rw [h]; rfl

@[simp] theorem accept_inputs (s : State) (c : Word) : (s.accept c).env.inputs = s.env.inputs := by
  obtain ⟨_, _, h, hi, -⟩ := accept_spec s c
  rw [h]; exact hi

theorem locate_operand_lt {b : Build} {i : WordIndex} {r : OperandReg} {j : Nat} (h : locate b i = .operand r j) :
    j < b.nw := by
  unfold locate at h
  split at h
  · split at h
    · rename_i hlt; injection h with _ hj; exact hj ▸ hlt
    · cases h
  · rename_i hne
    exact absurd h (hne r j)

/-- While a command is in the engine and BUSY = 1, a host access leaves the registers and the latch alone
(70_reset_and_hazards.md R215). -/
theorem hostAccess_busy (s : State) (a : Access) (h : s.status.busy = true) :
    (s.hostAccess a).regs = s.regs ∧ (s.hostAccess a).latch = s.latch ∧ (s.hostAccess a).build = s.build ∧
      (s.hostAccess a).status.busy = true ∧ (s.hostAccess a).status.valid = s.status.valid ∧
      (s.hostAccess a).status.err = s.status.err ∧ (s.hostAccess a).env.inputs = s.env.inputs := by
  cases a with
  | read i => exact ⟨rfl, rfl, rfl, h, rfl, rfl, rfl⟩
  | write i v =>
    have hc := writeWord_cases s i v
    simp only [State.hostAccess]
    rcases hc with e | ⟨_, e⟩ | ⟨_, e⟩ | ⟨_, e⟩ | ⟨hb, _⟩ | ⟨hb, _⟩ | ⟨hb, _⟩
    · rw [e]; exact ⟨rfl, rfl, rfl, h, rfl, rfl, rfl⟩
    · rw [e]; exact ⟨rfl, rfl, rfl, h, rfl, rfl, rfl⟩
    · rw [e]; exact ⟨rfl, rfl, rfl, h, rfl, rfl, rfl⟩
    · rw [e]; exact ⟨rfl, rfl, rfl, h, rfl, rfl, rfl⟩
    · simp [h] at hb
    · simp [h] at hb
    · simp [h] at hb

/-! The registers at the fixed offsets, in every build (20_memory.md R61). -/

@[simp] theorem locate_id (b : Build) : locate b (indexOf 0x000) = .id := rfl
@[simp] theorem locate_param (b : Build) : locate b (indexOf 0x004) = .param := rfl
@[simp] theorem locate_ctrl (b : Build) : locate b (indexOf 0x008) = .ctrl := rfl
@[simp] theorem locate_status (b : Build) : locate b (indexOf 0x00C) = .status := rfl
@[simp] theorem locate_cmd (b : Build) : locate b (indexOf 0x010) = .cmd := rfl
@[simp] theorem locate_pinf (b : Build) : locate b (indexOf 0x014) = .pinf := rfl

/-- The bits of the word STATUS reads (10_state.md R26). -/
theorem status_bits (st : Status) :
    st.toWord.getLsbD 0 = st.busy ∧ st.toWord.getLsbD 1 = st.done ∧ st.toWord.getLsbD 2 = st.valid ∧
    st.toWord.getLsbD 3 = st.wdrop ∧ st.toWord.extractLsb' 4 4 = 0#4 ∧
    st.toWord.extractLsb' 8 4 = st.err ∧ st.toWord.extractLsb' 12 20 = 0#20 := by
  obtain ⟨a, b, c, d, e⟩ := st
  revert a b c d e
  decide +kernel

/-- What a word outside STATUS reads depends on: the build, CTRL, PINF, and the one register it is a word of. -/
theorem readWord_congr (s t : State) (k : WordIndex) (hb : t.build = s.build) (hie : t.ie = s.ie)
    (h1 : locate s.build k ≠ .status) (h2 : locate s.build k = .pinf → t.regs.pinf = s.regs.pinf)
    (h3 : ∀ r j, locate s.build k = .operand r j → t.regs.get r = s.regs.get r) : t.readWord k = s.readWord k := by
  unfold State.readWord
  rw [hb, hie]
  cases hl : locate s.build k <;> simp_all

theorem setF_inRange {r : Regs} {b : Build} (h : r.InRange b) (i : Fin 16) (v : Nat) (hv : v < 2 ^ b.w) :
    (r.setF i v).InRange b := by
  refine ⟨fun j => ?_, h.2.1, h.2.2.1, h.2.2.2⟩
  by_cases hj : j = i
  · subst hj; simpa
  · rw [setF_getF_ne _ _ hj]; exact h.1 j

theorem wrpt_inRange {r : Regs} {b : Build} (h : r.InRange b) (n : Fin 8) (p : Pt)
    (hx : p.storedX < 2 ^ b.w) (hy : p.storedY < 2 ^ b.w) : (r.wrpt n p).InRange b := by
  obtain ⟨h1, h2, h3, h4, h5⟩ := wrpt_spec r n p
  refine ⟨fun j => ?_, by simpa using h.2.1, by simpa using h.2.2.1, by simpa using h.2.2.2⟩
  by_cases hj : j = xIndex n
  · subst hj; omega
  by_cases hj' : j = yIndex n
  · subst hj'; omega
  rw [h4 j hj hj']; exact h.1 j

theorem set_inRange {r : Regs} {b : Build} (h : r.InRange b) (o : OperandReg) (v : Nat) (hv : v < 2 ^ b.w) :
    (r.set o v).InRange b := by
  cases o with
  | m => exact ⟨h.1, hv, h.2.2.1, h.2.2.2⟩
  | a => exact ⟨h.1, h.2.1, hv, h.2.2.2⟩
  | b => exact ⟨h.1, h.2.1, h.2.2.1, hv⟩
  | f i => exact setF_inRange h i v hv

theorem get_lt {r : Regs} {b : Build} (h : r.InRange b) (o : OperandReg) : r.get o < 2 ^ b.w := by
  cases o with
  | m => exact h.2.1
  | a => exact h.2.2.1
  | b => exact h.2.2.2
  | f i => exact h.1 i

end Sys2Proof.Machine
end

