-- ==== Sys2Proof/Laws/Steps.lean ====
section
/-! SUPPORT. Laws/Steps.lean: everything a step can do, said once: the inversion lemmas of `clock`, `applyInput` and
`step`. -/

namespace Sys2Proof.Machine

/-- Everything a clock of the engine can do (60_exceptions.md R181 to R184, R199). -/
inductive Clocks (s : State) : State → Prop where
  | idle (h : s.latch = none) : Clocks s s
  | busy (l : Latch) (n : Nat) (h : s.latch = some l) (hr : l.remaining = n + 1) :
      Clocks s { s with latch := some { l with remaining := n } }
  | command (l : Latch) (h : s.latch = some l) (hr : l.remaining = 0) (i : Instr) (hd : decode l.word = .ok i)
      (t : State) (hx : exec i s = .next t) (ht : Completes s i t) : Clocks s t
  | illegal (l : Latch) (h : s.latch = some l) (hr : l.remaining = 0) (e : DecodeError)
      (hd : decode l.word = .error e) : Clocks s (s.raise .illegal)

theorem clock_clocks (s : State) : ∃ t, s.clock = .next t ∧ Clocks s t := by
  unfold State.clock
  split
  · rename_i h; exact ⟨s, rfl, .idle h⟩
  · rename_i l h
    split
    · rename_i hr
      unfold State.completeCommand
      split
      · rename_i i hd
        obtain ⟨t, hx, ht⟩ := exec_completes i s
        exact ⟨t, hx, .command l h hr i hd t hx ht⟩
      · rename_i e hd; exact ⟨_, rfl, .illegal l h hr e hd⟩
    · rename_i n hr; exact ⟨_, rfl, .busy l n h hr⟩

/-- Everything one event can do. -/
inductive Applies (s : State) : Input → State → Prop where
  | clock (t : State) (h : Clocks s t) : Applies s .clock t
  | access (a : Access) : Applies s (.access a) (s.hostAccess a)
  | accessIdle (a : Access) (h : s.latch = none) : Applies s (.accessInClock a) (s.hostAccess a)
  | accessBusy (a : Access) (l : Latch) (h : s.latch = some l) (t : State) (ht : Clocks (s.hostAccess a) t) :
      Applies s (.accessInClock a) t
  | reset : Applies s .reset s.resetEvent

theorem applyInput_applies (s : State) (e : Input) : ∃ t, s.applyInput e = .next t ∧ Applies s e t := by
  cases e with
  | clock =>
    obtain ⟨t, h, ht⟩ := clock_clocks s
    exact ⟨t, h, .clock t ht⟩
  | access a => exact ⟨_, rfl, .access a⟩
  | accessInClock a =>
    simp only [State.applyInput, State.accessInClock]
    split
    · rename_i h; exact ⟨_, rfl, .accessIdle a h⟩
    · rename_i l h
      obtain ⟨t, hx, ht⟩ := clock_clocks (s.hostAccess a)
      exact ⟨t, hx, .accessBusy a l h t ht⟩
  | reset => exact ⟨_, rfl, .reset⟩

/-- Everything a step can do: a clock when no event is coming, and otherwise the first coming event. -/
theorem step_cases {s t : State} (h : step s = .next t) :
    (s.env.inputs = [] ∧ Clocks s t) ∨
    ∃ e es, s.env.inputs = e :: es ∧ Applies (s.withInputs es) e t := by
  unfold step State.nextEvent at h
  split at h
  · rename_i hi
    obtain ⟨u, hu, hc⟩ := clock_clocks s
    rw [hu] at h
    injection h with h
    exact .inl ⟨hi, h ▸ hc⟩
  · rename_i e es hi
    obtain ⟨u, hu, hc⟩ := applyInput_applies (s.withInputs es) e
    have : (s.withInputs es).applyInput e = .next t := h
    rw [hu] at this
    injection this with this
    exact .inr ⟨e, es, hi, this ▸ hc⟩

end Sys2Proof.Machine
end

