-- ==== Sys2Proof/Tests/Slice0.lean ====
section
/-! SUPPORT. Tests/Slice0.lean: small tests, each with its expected result from spec/95_test_vectors.md (the vector's name
stands beside it) or worked out by hand from the rule named, and one witness for each obligation that has hypotheses. -/

namespace Sys2Proof.Tests

open Sys2Proof.Machine

/-- An idle block at W = 256 with the given M, A, B, first F registers and PINF; the rest is as after reset. -/
def start (m a b : Nat) (f : List Nat) (pinf : BitVec 8) : State :=
  { State.reset with regs := { f := Vector.ofFn fun i => f.getD i.val 0, m, a, b, pinf } }

/-- The state after the one step that runs a command word. -/
def after (s : State) (w : Nat) : State := nextOr s (step (s.withFetchWord 32 w))

/-- STATUS as the host reads it, and the registers F0, F1, ... asked for. -/
def see (s : State) (fs : List (Fin 16)) : Word × List Nat := (s.status.toWord, fs.map s.regs.getF)

/-- STATUS, the coordinates of a point register, and PINF. -/
def seePoint (s : State) (n : Fin 8) : Word × Nat × Nat × BitVec 8 :=
  (s.status.toWord, s.regs.getF (xIndex n), s.regs.getF (yIndex n), s.regs.pinf)

/-- The secp256k1 modulus (95_test_vectors.md section 1). -/
def p256k1 : Nat := 0xFFFFFFFFFFFFFFFFFFFFFFFFFFFFFFFFFFFFFFFFFFFFFFFFFFFFFFFEFFFFFC2F

/-- The secp256k1 generator's x (95_test_vectors.md section 1). -/
def gx : Nat := 0x79BE667EF9DCBBAC55A06295CE870B07029BFCDB2DCE28D959F2815B16F81798

/-- The secp256k1 generator's y (95_test_vectors.md section 1). -/
def gy : Nat := 0x483ADA7726A3C4655DA4FBFC0E1108A8FD17B448A68554199C47D08FFB10D4B8

/-! ## Well-formedness (30_encoding.md R81): each check refuses an ill-formed term -/

theorem test_wellFormed_refuses_point_operands_with_bit_3 :
    (Instr.pdbl 8 0).wellFormed = false ∧ (Instr.pdbl 0 8).wellFormed = false ∧
    (Instr.padd 15 0 0).wellFormed = false ∧ (Instr.padd 0 9 0).wellFormed = false ∧
    (Instr.padd 0 0 8).wellFormed = false ∧ (Instr.pmul 8 0 0).wellFormed = false ∧
    (Instr.pmul 0 8 0).wellFormed = false ∧ (Instr.pverify 8).wellFormed = false := by decide

theorem test_wellFormed_admits_every_register :
    (Instr.modmul 15 15 15).wellFormed = true ∧ (Instr.modpow 15 8 9).wellFormed = true ∧
    (Instr.modinv 15 15).wellFormed = true ∧ (Instr.pdbl 7 7).wellFormed = true ∧
    (Instr.padd 7 7 7).wellFormed = true ∧ (Instr.pmul 7 7 15).wellFormed = true ∧
    (Instr.pverify 7).wellFormed = true := by decide

/-! ## Decoding: words written bit by bit from 30_encoding.md R80 and R84, as RSV, S2, S1, D, OPC -/

theorem test_decode_modmul : decode 0b000000000000_0010_0001_0011_00000001#32 = .ok (.modmul 3 1 2) := by decide
theorem test_decode_modpow : decode 0b000000000000_1101_1010_1100_00000010#32 = .ok (.modpow 12 10 13) := by decide
theorem test_decode_modinv : decode 0b000000000000_0000_1001_1110_00000011#32 = .ok (.modinv 14 9) := by decide
theorem test_decode_pdbl : decode 0b000000000000_0000_0010_0101_00010000#32 = .ok (.pdbl 5 2) := by decide
theorem test_decode_padd : decode 0b000000000000_0001_0110_0010_00010001#32 = .ok (.padd 2 6 1) := by decide
theorem test_decode_pmul : decode 0b000000000000_1111_0000_0001_00010010#32 = .ok (.pmul 1 0 15) := by decide
theorem test_decode_pverify : decode 0b000000000000_0000_0111_0000_00010011#32 = .ok (.pverify 7) := by decide

/-- The words of program 3 (95_test_vectors.md section 3). -/
theorem test_encode_program_3 :
    [Instr.pdbl 1 0, .padd 2 0 1, .padd 4 0 3, .modinv 10 3, .modmul 11 10 3, .modpow 12 10 13].map encode =
      [0x00000110#32, 0x00010211#32, 0x00030411#32, 0x00003A03#32, 0x0003AB01#32, 0x000DAC02#32] := by decide

/-- The ILLEGAL words of 95_test_vectors.md 2.1, each refused for the reason the table gives. -/
theorem test_decode_refuses_by_name :
    [0x00000000#32, 0x00000014#32, 0x000000FF#32, 0x00000004#32, 0x00F00112#32, 0xFF000001#32, 0x00011203#32,
      0x00000113#32, 0x00000810#32, 0x00008010#32, 0x00080011#32].map decode =
    [.error (.reservedOpcode 0x00#8), .error (.reservedOpcode 0x14#8), .error (.reservedOpcode 0xFF#8),
      .error (.reservedOpcode 0x04#8), .error (.reservedBits 0x00F#12), .error (.reservedBits 0xFF0#12),
      .error .unusedField, .error .unusedField, .error .pointIndex, .error .pointIndex, .error .pointIndex] := by decide

theorem test_tableWord_reads_the_one_word :
    decodeTableWord 32 0x000F0112 = some (.pmul 1 0 15) ∧ decodeTableWord 32 0x00F00112 = none ∧
    decodeTableWord 8 0x01 = some (.modmul 0 0 0) := by decide

/-! ## Field commands: F1 and F2 are the sources, F3 the destination -/

/-- V-F6: the exact 2W-bit product is reduced. -/
theorem test_modmul_max_operands :
    see (after (start p256k1 0 0 [0, 2 ^ 256 - 1, 2 ^ 256 - 1] 0xFF#8) 0x00021301) [0, 1, 3] =
      (0x00000002#32, [0, 2 ^ 256 - 1, 0x1000007A0000E8900]) := by decide +kernel

/-- V-F5: M = 0, and the destination keeps its value. -/
theorem test_modmul_modulus : see (after (start 0 0 0 [0, 5, 6, 777] 0xFF#8) 0x00021301) [3] = (0x00000202#32, [777]) := by
  decide +kernel

/-- V-F9: the exponent 0 gives 1 also for M = 1. -/
theorem test_modpow_zero_exponent : see (after (start 1 0 0 [0, 5, 0] 0xFF#8) 0x00021302) [3] = (0x00000002#32, [1]) := by
  decide +kernel

/-- V-F16: secp256k1, G.x². -/
theorem test_modpow_square : see (after (start p256k1 0 0 [0, gx, 2] 0xFF#8) 0x00021302) [3] =
    (0x00000002#32, [0x8550E7D238FCF3086BA9ADCF0FB52A9DE3652194D06CB5BB38D50229B854FC49]) := by decide +kernel

/-- V-F29: secp256k1, the inverse of 2, with destination and source one register. -/
theorem test_modinv_of_two : see (after (start p256k1 0 0 [0, 2] 0xFF#8) 0x00001103) [1] =
    (0x00000002#32, [0x7FFFFFFFFFFFFFFFFFFFFFFFFFFFFFFFFFFFFFFFFFFFFFFFFFFFFFFF7FFFFE18]) := by decide +kernel

/-- V-F21: a multiple of M. -/
theorem test_modinv_noninv : see (after (start 7 0 0 [0, 14, 0, 777] 0xFF#8) 0x00001303) [3] = (0x00000302#32, [777]) := by
  decide +kernel

/-! ## Point commands -/

/-- V-S3: PDBL P1, P0 gives 2G on secp256k1. -/
theorem test_pdbl_secp256k1 : seePoint (after (start p256k1 0 7 [gx, gy] 0xFE#8) 0x00000110) 1 =
    (0x00000002#32, 0xC6047F9441ED7D6D3045406E95C07CD85C778E4B8CEF3CA7ABAC09B95C709EE5,
      0x1AE168FEA63DC339A3C58419466CEAEEF7F632653266D0E1236431A950CFE52A, 0xFC#8) := by decide +kernel

/-- V-P6: an even modulus with 2y ≡ 0: nothing is written. -/
theorem test_pdbl_noninv : seePoint (after (start 4 0 0 [1, 2, 8, 9] 0xFE#8) 0x00000110) 1 =
    (0x00000302#32, 8, 9, 0xFE#8) := by decide +kernel

/-- V-P17: PADD P2, P0, P1 over a composite modulus, self = (0, 1). -/
theorem test_padd_self_is_the_first_source :
    seePoint (after (start 15 0 0 [0, 1, 2, 0] 0xFC#8) 0x00010211) 2 = (0x00000002#32, 2, 3, 0xF8#8) := by decide +kernel

/-- V-P15 with the destination P0 itself: equal x and unequal y give infinity, stored as (0, 0). -/
theorem test_padd_equal_x_gives_infinity :
    seePoint (after (start 17 2 2 [5, 1, 5, 5] 0xFC#8) 0x00010011) 0 = (0x00000002#32, 0, 0, 0xFD#8) := by decide +kernel

/-- V-M8: PMUL P1, P0, F4 with the scalar 2^256 − 1. -/
theorem test_pmul_largest_scalar :
    seePoint (after (start 17 2 2 [5, 1, 0, 0, 2 ^ 256 - 1] 0xFE#8) 0x00040112) 1 = (0x00000002#32, 3, 16, 0xFC#8) := by
  decide +kernel

/-- V-M13: M ≤ 3 raises MODULUS even for infinity and the scalar 0. -/
theorem test_pmul_modulus :
    seePoint (after (start 3 0 0 [0, 0, 8, 9] 0xFF#8) 0x00040112) 1 = (0x00000202#32, 8, 9, 0xFF#8) := by decide +kernel

/-- V-S1: the secp256k1 generator is on its curve. -/
theorem test_pverify_generator :
    see (after (start p256k1 0 7 [gx, gy] 0xFE#8) 0x00000013) [0, 1] = (0x00000006#32, [gx, gy]) := by decide +kernel

/-- V-M15, V-C7: off the curve VALID is 0; an error keeps the VALID of before. -/
theorem test_pverify_off_curve_and_error :
    (after (start 17 2 2 [5, 2] 0xFE#8) 0x00000013).status.toWord = 0x00000002#32 ∧
    (after { start 3 2 2 [5, 1] 0xFE#8 with status := ⟨false, true, true, false, 0#4⟩ } 0x00000013).status.toWord =
      0x00000206#32 := by decide +kernel

/-! ## The window, status and reset -/

/-- V-C1: ID, PARAM, STATUS, PINF and CTRL after reset. -/
theorem test_reset_words :
    [0x000, 0x004, 0x00C, 0x014, 0x008].map (fun o => State.reset.readWord (indexOf o)) =
      [0x45434F50#32, 0x08100100#32, 0x00000000#32, 0x000000FF#32, 0x00000000#32] := by decide +kernel

/-- Program 1: word 1 of M reads 0xFFFFFFFE, word 7 of G.x 0x79BE667E, and word 8 of the slot, reserved at W = 256, 0. -/
theorem test_words_of_operand_registers :
    [0x044, 0x41C, 0x420].map (fun o => (start p256k1 0 7 [gx, gy] 0xFE#8).readWord (indexOf o)) =
      [0xFFFFFFFE#32, 0x79BE667E#32, 0#32] := by decide +kernel

/-- 20_memory.md R63: a write of word 1 of F1 leaves its other words. -/
theorem test_write_replaces_one_word :
    ((start 0 0 0 [0, 0x3000000020000000100000004] 0xFF#8).writeWord (indexOf 0x444) 9#32).regs.getF 1 =
      0x3000000020000000900000004 := by decide +kernel

/-- The state of V-C8 to V-C11: a command accepted with two more clocks to wait. -/
def waiting : State := (start 17 0 0 [1, 3, 4] 0xFF#8).acceptWith 0x00021002#32 2

/-- V-C8, V-C9, V-C11: while busy, writes of F5 and of CMD are dropped and set WDROP, and F0 reads as before. -/
theorem test_busy_writes_are_dropped :
    (waiting.writeWord (indexOf 0x540) 7#32).regs = waiting.regs ∧
    (waiting.writeWord (indexOf 0x540) 7#32).status.toWord = 0x00000009#32 ∧
    (waiting.writeWord (indexOf 0x010) 0#32).latch = waiting.latch ∧
    (waiting.writeWord (indexOf 0x010) 0#32).status.toWord = 0x00000009#32 ∧
    waiting.readWord (indexOf 0x400) = 1#32 := by decide +kernel

/-- V-C10: while busy, CTRL and the clearing of WDROP take effect. -/
theorem test_busy_control_writes_are_performed :
    ((waiting.dropWrite.writeWord (indexOf 0x008) 1#32).writeWord (indexOf 0x00C) 8#32).ie = true ∧
    ((waiting.dropWrite.writeWord (indexOf 0x008) 1#32).writeWord (indexOf 0x00C) 8#32).status.toWord =
      0x00000001#32 := by decide +kernel

/-- V-C3, V-C4: an ILLEGAL word; the W1C of DONE keeps ERR. -/
theorem test_illegal_and_acknowledge :
    (after State.reset 0x00000000).status.toWord = 0x00000102#32 ∧
    ((after State.reset 0x00000000).writeWord (indexOf 0x00C) 2#32).status.toWord = 0x00000100#32 := by decide +kernel

/-- V-C12: an accepted command takes irq away. -/
theorem test_acceptance_clears_irq :
    let s := { State.reset with ie := true, status := ⟨false, true, false, false, 0#4⟩ }
    s.irq = true ∧ (s.acceptWith 0x00021001#32 0).irq = false := by decide +kernel

/-- V-C13: reset while busy. -/
theorem test_reset_while_busy : nextOr waiting (step (waiting.withInputs [.reset])) = State.reset := by decide +kernel

/-- V-C14: writing coordinates leaves the infinity flag, and infinity verifies. -/
theorem test_coordinates_leave_the_infinity_flag :
    (after (((start 17 2 2 [] 0xFF#8).writeWord (indexOf 0x400) 5#32).writeWord (indexOf 0x440) 2#32)
      0x00000013).status.toWord = 0x00000006#32 := by decide +kernel

/-- The host's side of the race of program 5: CMD, then the write of F0, then clocks. -/
def racing (latency : Nat) : State :=
  { start 17 0 0 [0, 3, 4] 0xFF#8 with
    env := { inputs := [.access (.write (indexOf 0x010) 0x00021002#32), .clock, .access (.write (indexOf 0x400) 7#32),
      .clock], latencies := [latency], draws := 0, answer := none } }

/-- Program 5 (a): the write lands while busy. -/
theorem test_race_long_latency : see (run 4 (racing 1)) [0] = (0x0000000A#32, [13]) := by decide +kernel

/-- Program 5 (b): the write lands after the completion. -/
theorem test_race_short_latency : see (run 4 (racing 0)) [0] = (0x00000002#32, [7]) := by decide +kernel

/-- 60_exceptions.md R191: a completion in the clock of a W1C write of DONE wins. -/
theorem test_completion_wins :
    (nextOr waiting (step (((start 17 0 0 [0, 3, 4] 0xFF#8).acceptWith 0x00021002#32 0).withInputs
      [.accessInClock (.write (indexOf 0x00C) 2#32)]))).status.toWord = 0x00000002#32 := by decide +kernel

/-! ## Witnesses: a state and operands that meet all the hypotheses of an obligation, for each clause that has its own -/

/-- Two affine points of the curve of 95_test_vectors.md 2.3, G in P0 and 2G in P1, and scalars 0, 1 and 5. -/
def curve17 : State := start 17 2 2 [5, 1, 6, 3, 0, 1, 5] 0xFC#8

/-- The invariant of a state whose registers are in range and whose engine is idle. -/
theorem inv_of_idle (s : State) (hr : s.regs.InRange s.build) (he : s.status.err.toNat ≤ 3)
    (hb : s.status.busy = false) (hl : s.latch = none) : s.Inv :=
  ⟨hr, he, by rw [hb, hl]; rfl, by simp [hb], by simp [hl]⟩

/-- The invariant of a state in which a command has been accepted. -/
theorem inv_of_accepted (s : State) (hr : s.regs.InRange s.build) (he : s.status.err.toNat ≤ 3) (c : Word) (n : Nat) :
    (s.acceptWith c n).Inv :=
  ⟨hr, he, rfl, fun _ => rfl, fun l h => by cases h; rfl⟩

theorem start_inRange (m a b : Nat) (f : List Nat) (pinf : BitVec 8)
    (h : (∀ i : Fin 16, f.getD i.val 0 < 2 ^ 256) ∧ m < 2 ^ 256 ∧ a < 2 ^ 256 ∧ b < 2 ^ 256) :
    (start m a b f pinf).regs.InRange (start m a b f pinf).build := by
  refine ⟨fun i => ?_, h.2⟩
  have : (start m a b f pinf).regs.getF i = f.getD i.val 0 := by simp [start, Regs.getF]
  rw [this]
  exact h.1 i

/-- EveryStepKeepsTheInvariant, ValidChangesOnlyByVerifyOrReset, StatusBitsHaveOnlyTheirProducers: the completion of a
PVERIFY, from a state with the invariant, that sets VALID and DONE and clears BUSY. -/
theorem witness_step_from_invariant :
    (curve17.acceptWith 0x00000013#32 0).Inv ∧
    ∃ t, step (curve17.acceptWith 0x00000013#32 0) = .next t ∧ t.status = ⟨false, true, true, false, 0#4⟩ := by
  exact ⟨inv_of_accepted curve17 (start_inRange _ _ _ _ _ (by decide +kernel)) (by decide) _ _,
    _, rfl, by decide +kernel⟩

/-- StatusBitsHaveOnlyTheirProducers: from states with the invariant, an acceptance sets BUSY, and a dropped write sets
WDROP. -/
theorem witness_busy_and_wdrop_set :
    (curve17.withInputs [.access (.write (indexOf 0x010) 0#32)]).Inv ∧
    (nextOr curve17 (step (curve17.withInputs [.access (.write (indexOf 0x010) 0#32)]))).status.busy = true ∧
    ((curve17.withInputs [.access (.write (indexOf 0x014) 0#32)]).acceptWith 0#32 1).Inv ∧
    (nextOr curve17 (step ((curve17.withInputs [.access (.write (indexOf 0x014) 0#32)]).acceptWith 0#32 1))).status.wdrop =
      true := by
  have hr := start_inRange 17 2 2 [5, 1, 6, 3, 0, 1, 5] 0xFC#8 (by decide +kernel)
  exact ⟨inv_of_idle _ hr (by decide) rfl rfl, by rfl,
    inv_of_accepted (curve17.withInputs [.access (.write (indexOf 0x014) 0#32)]) hr (by decide) _ _, by rfl⟩

/-- An idle block whose STATUS has DONE and WDROP set, with a host access as the only coming event. -/
def flagged (a : Access) : State :=
  { curve17.withInputs [.access a] with status := ⟨false, true, false, true, 3#4⟩ }

/-- StatusBitsHaveOnlyTheirProducers: from states with the invariant, an acceptance and a W1C write clear DONE, a W1C write
clears WDROP, and a completion changes ERR. -/
theorem witness_done_wdrop_err_change :
    (flagged (.write (indexOf 0x010) 0#32)).Inv ∧ (flagged (.write (indexOf 0x00C) 0xA#32)).Inv ∧
    (nextOr curve17 (step (flagged (.write (indexOf 0x010) 0#32)))).status.done = false ∧
    (nextOr curve17 (step (flagged (.write (indexOf 0x00C) 0xA#32)))).status = ⟨false, false, false, false, 3#4⟩ ∧
    (curve17.acceptWith 0#32 0).Inv ∧ (nextOr curve17 (step (curve17.acceptWith 0#32 0))).status.err = 1#4 := by
  have hr := start_inRange 17 2 2 [5, 1, 6, 3, 0, 1, 5] 0xFC#8 (by decide +kernel)
  exact ⟨inv_of_idle (flagged _) hr (by decide) rfl rfl, inv_of_idle (flagged _) hr (by decide) rfl rfl, by rfl, by rfl,
    inv_of_accepted curve17 hr (by decide) _ _, by rfl⟩

/-- WellFormedCommandsDecodeFromTheirWords, DecodedWordsAreTheirCommandsEncodings, EveryLegalWordHasExactlyItsOwnRow,
PlacedWordRunsInTheNextStep. -/
theorem witness_encoding :
    (Instr.padd 7 0 7).wellFormed = true ∧ decode 0x00070711#32 = .ok (.padd 7 0 7) ∧
    decodeTableWord 32 0x00070711 = some (.padd 7 0 7) ∧
    (∃ r ∈ opcodeRows, r.selects 0x00070711#32 = true ∧ r.mnemonic = "PADD") := by
  refine ⟨by decide, by decide, by decide, ⟨"PADD", 0xFFF888FF#32, 0x00000011#32⟩, by decide, by decide, rfl⟩

/-- IllegalWordsAreAcceptedAndCompleteWithIllegal, ErrorsHaveTheirPriority: each condition of R86 at its boundary. -/
theorem witness_illegal_words :
    IllegalWord 0x00000004#32 ∧ IllegalWord 0x00100001#32 ∧ IllegalWord 0x00011203#32 ∧ IllegalWord 0x00000113#32 ∧
    IllegalWord 0x00000810#32 ∧ IllegalWord 0x00008013#32 ∧ IllegalWord 0x00080011#32 ∧ ¬ IllegalWord 0x00070711#32 ∧
    curve17.status.busy = false ∧ (curve17.acceptWith 0x00000004#32 0).latch = some ⟨0x00000004#32, curve17.regs, 0⟩ := by
  refine ⟨?_, ?_, ?_, ?_, ?_, ?_, ?_, ?_, rfl, rfl⟩ <;> unfold IllegalWord <;> decide

/-- StepRunsTheLatchedCommand, CompletionWinsOverClearingDone, ErrorsHaveTheirPriority: a latched command with no clock
left, each with the coming events of one clause. -/
theorem witness_latched_command :
    decode 0x00000110#32 = .ok (.pdbl 1 0) ∧
    (curve17.acceptWith 0x00000110#32 0).latch = some ⟨0x00000110#32, curve17.regs, 0⟩ ∧
    (curve17.acceptWith 0x00000110#32 0).env.inputs = [] ∧ (curve17.acceptWith 0x00000110#32 0).status.busy = true ∧
    ((curve17.withInputs [.clock]).acceptWith 0x00000110#32 0).env.inputs = [.clock] ∧
    ((curve17.withInputs [.accessInClock (.write (indexOf 0x00C) 2#32)]).acceptWith 0x00000110#32 0).env.inputs =
      [.accessInClock (.write (indexOf 0x00C) 2#32)] ∧
    minModulus (.pdbl 1 0) ≤ curve17.regs.m ∧ (start 3 0 0 [] 0#8).regs.m < minModulus (.pdbl 1 0) := by
  decide +kernel

/-- ScalarTwiceKOnAPointIsKOnItsDouble, ScalarLoopDoublesThenAddsToTheResult: over the composite modulus 15, a doubling and an
odd turn of the loop that commit, where the other order of operands gives another point; and an even turn. By hand from R132,
R133: 2^13 ≡ 2 gives slope 6 and (4, 11); 3^13 ≡ 3 gives slope 0, and self's y decides. -/
theorem witness_loop_over_a_composite_modulus :
    3 / 2 < 2 ^ 1 ∧ 0 < 3 ∧ 3 % 2 = 1 ∧ 2 % 2 = 0 ∧ dbl (.aff 1 1) 0 15 = .ok (.aff 4 11) ∧
    add (.aff 1 1) (.aff 4 11) 0 15 = .ok (.aff 10 14) ∧ add (.aff 4 11) (.aff 1 1) 0 15 = .ok (.aff 10 4) ∧
    smul 3 (.aff 1 1) 0 15 = .ok (.aff 10 14) ∧ add (.aff 1 2) (.aff 1 2) 0 4 = .error .noninv := by decide +kernel

/-- ErrorsHaveTheirPriority, PmulCommitsTheLoopOrRaisesNoninv, ScalarTwiceKOnAPointIsKOnItsDouble,
ScalarLoopDoublesThenAddsToTheResult, NoninvIsRaisedExactlyWhereR186Says: a doubling that fails, on the least even modulus in
range. -/
theorem witness_failing_doubling :
    dbl (.aff 1 2) 0 4 = .error .noninv ∧ (start 4 0 0 [1, 2] 0xFE#8).sources.rdpt 0 = .aff 1 2 ∧
    smul 2 (.aff 1 2) 0 4 = .error .noninv ∧ smul 1 (.aff 1 2) 0 4 = .ok (.aff 1 2) ∧
    dbl (.aff 5 1) 2 17 = .ok (.aff 6 3) ∧ (start 4 0 0 [1, 2] 0xFE#8).sources.getInf 0 = false ∧
    (start 4 0 0 [1, 2] 0xFE#8).sources.getF (yIndex 0) % 4 = 4 / 2 := by decide +kernel

/-- StepTakesTheNextEvent, ReadsChangeNothingOfTheBlock, ResetLeavesTheStatedValues, OnlyResetEndsACommandEarly,
EveryAcceptedCommandCompletes, ReservedLocationsReadZeroAndIgnoreWrites: the coming events and latches of their clauses (an ILLEGAL word
among them), with an access in the clock of an idle engine and of a waiting one. -/
theorem witness_coming_events :
    (curve17.withInputs [.access (.read 0)]).env.inputs = [.access (.read 0)] ∧
    (waiting.withInputs [.reset]).env.inputs = [.reset] ∧ (waiting.withInputs [.clock]).env.inputs.head? ≠ some .reset ∧
    (curve17.withInputs [.accessInClock (.read 0)]).env.inputs = [.accessInClock (.read 0)] ∧
    (waiting.withInputs [.accessInClock (.read 0)]).env.inputs = [.accessInClock (.read 0)] ∧
    (curve17.acceptWith 4#32 0).latch = some ⟨4#32, curve17.regs, 0⟩ ∧ decode 4#32 = .error (.reservedOpcode 4#8) ∧
    curve17.latch = none ∧ curve17.env.inputs = [] ∧ waiting.status.busy = true ∧ waiting.env.inputs = [] ∧
    ∃ l, waiting.latch = some l ∧ l.remaining = 1 + 1 := by
  exact ⟨rfl, rfl, by decide, rfl, rfl, rfl, by decide, rfl, rfl, rfl, rfl, _, rfl, rfl⟩

/-- CompletionCommitsOrChangesStatusOnly, IrqIsDoneAndEnable: a completion without error, and one with. -/
theorem witness_completions :
    (nextOr curve17 (curve17.acceptWith 0x00000110#32 0).clock).status.err = 0#4 ∧
    (nextOr curve17 ((start 3 0 0 [] 0#8).acceptWith 0x00000110#32 0).clock).status.err = 2#4 := by decide +kernel

/-- HostAccessesDoNotDisturbARunningCommand: a command with two clocks to wait; reads, dropped writes and a completion in
the clock of an access. -/
theorem witness_host_accesses :
    waiting.Inv ∧ (∃ l, waiting.latch = some l ∧ (∃ u, waiting.completeCommand l.word = .next u) ∧
      engineClocks [.access (.write (indexOf 0x440) 9#32), .clock, .access (.read 0), .accessInClock (.read 3)] =
        l.remaining) ∧
    (∃ u, (curve17.acceptWith 0#32 0).completeCommand 0#32 = .next u) ∧
    Input.reset ∉ [Input.access (.write (indexOf 0x440) 9#32), .clock, .access (.read 0), .accessInClock (.read 3)] ∧
    (Input.accessInClock (.write (indexOf 0x040) 5#32)).isEngineClock = true := by
  exact ⟨inv_of_accepted _ (start_inRange 17 0 0 [1, 3, 4] 0xFF#8 (by decide +kernel)) (by decide) _ _,
    ⟨_, rfl, ⟨_, rfl⟩, by decide⟩, ⟨_, rfl⟩, by decide, rfl⟩

/-- CommandsReadOnlyTheirSnapshot: two states with equal snapshots whose live registers, CTRL and STATUS differ; and two with
equal registers. -/
theorem witness_equal_sources :
    let s : State := curve17.acceptWith 0x00000110#32 0
    let s' : State := { s with regs := Regs.reset, ie := true, status := ⟨false, true, true, true, 3#4⟩ }
    s.sources = s'.sources ∧ s.regs ≠ s'.regs ∧ (∃ t, exec (.pdbl 1 0) s = .next t ∧ t.status.err = 0#4) ∧
    (∃ t, exec (.pdbl 1 0) s' = .next t) ∧ s.regs = { s with ie := true }.regs ∧
    s.status.valid = { s with ie := true }.status.valid ∧ (1 : RegField) = pointField 1 := by
  exact ⟨rfl, by decide +kernel, ⟨_, rfl, by decide +kernel⟩, ⟨_, rfl⟩, rfl, rfl, by decide⟩

/-- CommandsLeaveConfigurationAndControlAlone, FieldCommandsLeaveOtherWindowWordsAlone,
PointCommandsLeaveOtherWindowWordsAlone, WritingCoordinatesLeavesTheInfinityFlags. -/
theorem witness_frames :
    (∃ t, exec (.modmul 3 0 1) curve17 = .next t) ∧ (∃ t, exec (.padd 1 0 1) curve17 = .next t) ∧
    (∃ t, exec (.pverify 0) curve17 = .next t) ∧
    locate curve17.build (indexOf 0x400) = .operand (.f 0) 0 ∧ fieldIndex 3 ≠ 0 ∧ xIndex 1 ≠ 0 ∧ yIndex 1 ≠ 0 := by
  exact ⟨⟨_, rfl⟩, ⟨_, rfl⟩, ⟨_, rfl⟩, by decide +kernel, by decide, by decide, by decide⟩

/-- ModmulWritesTheProductModM, ModpowWritesThePowerModM, ModinvWritesTheFermatPower, ModinvInvertsModuloAPrime,
NoninvIsRaisedExactlyWhereR186Says: the least moduli. -/
theorem witness_field_commands :
    (start 1 0 0 [] 0#8).sources.m ≠ 0 ∧ 2 ≤ (start 2 0 0 [1] 0#8).sources.m ∧
    (start 2 0 0 [1] 0#8).sources.getF (fieldIndex 0) % (start 2 0 0 [1] 0#8).sources.m ≠ 0 ∧
    (start 2 0 0 [1] 0#8).sources.m.Prime ∧ (start 17 0 0 [10] 0#8).sources.m.Prime := by
  refine ⟨by decide +kernel, by decide +kernel, by decide +kernel, Nat.prime_two, ?_⟩
  show Nat.Prime 17
  norm_num

/-- PdblDoublesThePoint, PverifyTestsTheCurveEquation, NoninvIsRaisedExactlyWhereR186Says: the least modulus in range, with
infinity, y = 0, and an affine point that doubles. -/
theorem witness_doubling :
    3 < (start 4 0 0 [1, 1, 2, 0] 0xFC#8).sources.m ∧ (start 4 0 0 [1, 1, 2, 0] 0xFC#8).sources.getInf 7 = true ∧
    (start 4 0 0 [1, 1, 2, 0] 0xFC#8).sources.getF (yIndex 1) % 4 = 0 ∧
    (start 4 0 0 [1, 1, 2, 0] 0xFC#8).sources.getInf 0 = false ∧
    (start 4 0 0 [1, 1, 2, 0] 0xFC#8).sources.getF (yIndex 0) % 4 ≠ 0 ∧
    2 * ((start 4 0 0 [1, 1, 2, 0] 0xFC#8).sources.getF (yIndex 0) % 4) % 4 ≠ 0 := by decide +kernel

/-- PaddAddsThePoints: P0 = G, P1 = 2G, P2 = −G, P3 = infinity, one pair for each clause. -/
theorem witness_addition :
    let r := (start 17 2 2 [5, 1, 6, 3, 5, 16] 0xF8#8).sources
    3 < r.m ∧ r.getInf 3 = true ∧ r.getInf 0 = false ∧ r.getInf 1 = false ∧ r.getInf 2 = false ∧
    r.getF (xIndex 0) % 17 = r.getF (xIndex 2) % 17 ∧ r.getF (yIndex 0) % 17 ≠ r.getF (yIndex 2) % 17 ∧
    r.getF (xIndex 0) % 17 ≠ r.getF (xIndex 1) % 17 := by decide +kernel

/-- PmulCompletesOverAnOddModulus, OddModulusNeverRaisesNoninv, PointResultsReadBackUnchanged: the least odd modulus in
range; scalars 0 and 1; a doubling without error. -/
theorem witness_odd_modulus :
    3 < (start 5 0 0 [1, 1, 0, 1] 0xFE#8).sources.m ∧ (start 5 0 0 [1, 1, 0, 1] 0xFE#8).sources.m % 2 = 1 ∧
    4 ≤ minModulus (.pmul 1 0 2) ∧ (start 5 0 0 [1, 1, 0, 1] 0xFE#8).sources.getF (fieldIndex 2) = 0 ∧
    (start 5 0 0 [1, 1, 0, 1] 0xFE#8).sources.getF (fieldIndex 3) = 1 ∧ curve17.sources.m = curve17.regs.m ∧
    ∃ t, exec (.pdbl (pointField 1) (pointField 0)) curve17 = .next t ∧ t.status.err = 0#4 := by
  exact ⟨by decide +kernel, by decide +kernel, by decide, by decide +kernel, by decide +kernel, rfl, _, rfl, by decide +kernel⟩

/-- ModulusIsRaisedExactlyBelowTheRange: each side of each boundary. -/
theorem witness_modulus_boundaries :
    (Instr.padd 1 0 7).wellFormed = true ∧
    (start 0 0 0 [] 0#8).sources.m < minModulus (.modmul 0 0 0) ∧ minModulus (.modmul 0 0 0) ≤ (start 1 0 0 [] 0#8).sources.m ∧
    (start 1 0 0 [] 0#8).sources.m < minModulus (.modinv 0 0) ∧ minModulus (.modinv 0 0) ≤ (start 2 0 0 [] 0#8).sources.m ∧
    (start 3 0 0 [] 0#8).sources.m < minModulus (.padd 1 0 7) ∧ minModulus (.padd 1 0 7) ≤ (start 4 0 0 [] 0#8).sources.m := by
  decide +kernel

/-- OperandsThatNameNoPointRegisterAreIllegal. -/
theorem witness_ill_formed_term : (Instr.padd 0 0 8).wellFormed = false := by decide

theorem prime_17 : Nat.Prime 17 := by norm_num

/-- PaddCommutesModuloAPrime. -/
theorem witness_prime_modulus : curve17.sources.m.Prime ∧ 3 < curve17.sources.m := by
  exact ⟨prime_17, by decide +kernel⟩

/-- PaddAndPdblAreTheGroupLaw, PmulIsTheGroupMultiple: G and 2G are points of the curve over the integers mod 17. -/
theorem witness_points_of_the_curve :
    ∃ _ : Fact (Nat.Prime 17), ∃ P Q : (curveOver 17 2 2).Point,
      3 < 17 ∧ curve17.sources.m = 17 ∧ curve17.sources.a % 17 = 2 % 17 ∧
      curve17.sources.rdpt 0 = ptOf P ∧ curve17.sources.rdpt 1 = ptOf Q := by
  have hP : (curveOver 17 2 2).Nonsingular 5 1 := by
    rw [WeierstrassCurve.Affine.nonsingular_iff, WeierstrassCurve.Affine.equation_iff]
    simp only [curveOver]
    decide +kernel
  have hQ : (curveOver 17 2 2).Nonsingular 6 3 := by
    rw [WeierstrassCurve.Affine.nonsingular_iff, WeierstrassCurve.Affine.equation_iff]
    simp only [curveOver]
    decide +kernel
  exact ⟨⟨prime_17⟩, .some 5 1 hP, .some 6 3 hQ, by decide, rfl, rfl,
    (by decide +kernel : curve17.sources.rdpt 0 = .aff (5 : ZMod 17).val (1 : ZMod 17).val),
    (by decide +kernel : curve17.sources.rdpt 1 = .aff (6 : ZMod 17).val (3 : ZMod 17).val)⟩

/-- OperandWordsReadAtTheirOffsets, RegisterHoldsItsWordsWhateverTheOrder: the last word of the reference build, a value of
all ones, and the words in falling order. -/
theorem witness_operand_words :
    7 < curve17.build.nw ∧ curve17.status.busy = false ∧ curve17.regs.InRange curve17.build ∧
    2 ^ 256 - 1 < 2 ^ curve17.build.w ∧ [7, 6, 5, 4, 3, 2, 1, 0].Perm (List.range curve17.build.nw) := by
  exact ⟨by decide, rfl, start_inRange _ _ _ _ _ (by decide +kernel), by decide +kernel, by decide +kernel⟩

/-- CmdWriteWhileIdleAcceptsTheWord, PinfHoldsEightInfinityFlags, WrittenWordReadsBackAndOthersStay,
RepeatedWritesOtherThanCmdChangeNothing, WritesWhileBusyAreDroppedOrPerformed, IrqIsDoneAndEnable: idle and busy, and one
location of each kind. -/
theorem witness_locations :
    curve17.status.busy = false ∧ waiting.status.busy = true ∧
    locate curve17.build (indexOf 0x7DC) = .operand (.f 15) 7 ∧ locate curve17.build (indexOf 0x7E0) = .reserved ∧
    locate curve17.build (indexOf 0x010) = .cmd ∧ locate curve17.build (indexOf 0x014) = .pinf ∧
    locate curve17.build (indexOf 0x018) = .reserved ∧ locate curve17.build (indexOf 0x3FC) = .reserved ∧
    (2#32).getLsbD 1 = true ∧ (2#32).getLsbD 0 = false ∧ curve17.readWord (indexOf 0x400) = 5#32 ∧
    locate curve17.build (indexOf 0x400) ≠ .status := by decide +kernel

end Sys2Proof.Tests
end

section
/-! PROOFS. The identification and control registers ID, PARAM, CTRL and PINF (spec/10_state.md R28, R30, R33, R34): what a
read of each answers and what a write of each leaves, said once as equations, the bits of their words, and the obligations
these give. -/

namespace Sys2Proof.Machine

/-! ## What a read answers and a write leaves -/

@[simp] theorem readWord_id (s : State) : s.readWord (indexOf 0x000) = Config.idWord := rfl
@[simp] theorem readWord_param (s : State) : s.readWord (indexOf 0x004) = paramWord s.build := rfl
@[simp] theorem readWord_ctrl (s : State) : s.readWord (indexOf 0x008) = ctrlWord s.ie := rfl
@[simp] theorem readWord_pinf (s : State) : s.readWord (indexOf 0x014) = pinfWord s.regs.pinf := rfl

@[simp] theorem writeWord_id (s : State) (v : Word) : s.writeWord (indexOf 0x000) v = s := rfl
@[simp] theorem writeWord_param (s : State) (v : Word) : s.writeWord (indexOf 0x004) v = s := rfl
@[simp] theorem writeWord_ctrl (s : State) (v : Word) :
    s.writeWord (indexOf 0x008) v = { s with ie := v.getLsbD 0 } := rfl

theorem writeWhenIdle_of_idle {s : State} (t : State) (h : s.status.busy = false) : s.writeWhenIdle t = t := by
  simp [State.writeWhenIdle, h]

theorem writeWord_pinf_of_idle {s : State} (v : Word) (h : s.status.busy = false) :
    s.writeWord (indexOf 0x014) v = { s with regs := { s.regs with pinf := v.extractLsb' 0 8 } } :=
  writeWhenIdle_of_idle _ h

/-! ## ID -/

/-- Settles O42. -/
theorem idReadsItsConstantAndIgnoresWrites : Obligations.IdReadsItsConstantAndIgnoresWrites :=
  fun s => ⟨readWord_id s, writeWord_id s⟩

/-! ## PARAM -/

/-- The fields of PARAM (R34), build by build: there are sixteen. -/
theorem paramWord_fields (b : Build) :
    ((paramWord b).extractLsb' 0 16).toNat = b.w ∧ (paramWord b).extractLsb' 16 8 = 16#8 ∧
      (paramWord b).extractLsb' 24 8 = 8#8 := by
  obtain ⟨n⟩ := b
  revert n
  decide

/-- W determines the build: W = 256 is the reference configuration (R5, R6). -/
theorem eq_reference_of_w {b : Build} (h : b.w = 256) : b = Config.reference := by
  obtain ⟨n⟩ := b
  have hn : n = 7 := by
    simp only [Build.w, Build.nw] at h
    omega
  rw [hn]; rfl

theorem paramWord_reference : paramWord Config.reference = 0x08100100#32 := by decide

/-- Settles O43. -/
theorem paramReadsTheBuildAndIgnoresWrites : Obligations.ParamReadsTheBuildAndIgnoresWrites := by
  intro s
  rw [readWord_param]
  obtain ⟨hw, hnf, hnp⟩ := paramWord_fields s.build
  refine ⟨hw, hnf, hnp, fun h => ?_, writeWord_param s⟩
  rw [eq_reference_of_w h, paramWord_reference]

/-! ## CTRL -/

@[simp] theorem ctrlWord_ie (ie : Bool) : (ctrlWord ie).getLsbD 0 = ie := by
  cases ie <;> rfl

/-- Bits 31:1 of CTRL are reserved (R28). -/
theorem ctrlWord_reserved (ie : Bool) {n : Nat} (h : 1 ≤ n) : (ctrlWord ie).getLsbD n = false := by
  have hn : n ≠ 0 := by omega
  cases ie <;> simp [ctrlWord, bitWord, BitVec.getLsbD_one, hn]

/-- Settles O44. -/
theorem ctrlHoldsTheInterruptEnableOnly : Obligations.CtrlHoldsTheInterruptEnableOnly := by
  refine ⟨writeWord_ctrl, fun s => ?_, resetFor_ie⟩
  rw [readWord_ctrl]
  exact ⟨ctrlWord_ie s.ie, fun _ => ctrlWord_reserved s.ie⟩

/-! ## PINF -/

@[simp] theorem pinfWord_getLsbD (p : BitVec 8) (n : Fin 8) : (pinfWord p).getLsbD n = p.getLsbD n := by
  have hn : n.val < 32 := by omega
  simp [pinfWord, hn]

/-- Bits 7:0 of PINF are the flags (R30). -/
@[simp] theorem pinfWord_flags (p : BitVec 8) : (pinfWord p).extractLsb' 0 8 = p := by
  apply BitVec.eq_of_getLsbD_eq
  intro i hi
  have h32 : i < 32 := by omega
  simp [pinfWord, hi, h32]

/-- Bits 31:8 of PINF are reserved (R30). -/
@[simp] theorem pinfWord_reserved (p : BitVec 8) : (pinfWord p).extractLsb' 8 24 = 0#24 := by
  ext i hi
  simp [pinfWord]

/-- The flag of Pn after PINF takes the low bits of a word is bit n of the word. -/
theorem getInf_of_pinf_word (r : Regs) (v : Word) (n : Fin 8) :
    ({ r with pinf := v.extractLsb' 0 8 } : Regs).getInf n = v.getLsbD n := by
  simp [Regs.getInf]

@[simp] theorem reset_getInf (n : Fin 8) : Regs.reset.getInf n = true := by
  revert n
  decide

theorem pinfWord_reset : pinfWord Regs.reset.pinf = 0x000000FF#32 := by decide

/-- Settles O46. -/
theorem pinfHoldsEightInfinityFlags : Obligations.PinfHoldsEightInfinityFlags := by
  refine ⟨fun s => ?read, fun s v hidle => ⟨writeWord_pinf_of_idle v hidle, fun n hn => ?affine⟩, fun b => ?reset⟩
  case read =>
    rw [readWord_pinf]
    exact ⟨pinfWord_flags _, pinfWord_reserved _, fun n => (pinfWord_getLsbD _ n).symm⟩
  case affine =>
    rw [writeWord_pinf_of_idle v hidle]
    exact rdpt_of_affine _ n ((getInf_of_pinf_word s.regs v n).trans hn)
  case reset =>
    exact ⟨pinfWord_reset, fun n => rdpt_of_inf _ n (reset_getInf n)⟩

end Sys2Proof.Machine
end

section
/-! PROOFS. The register window (spec/20_memory.md): the location an aligned byte offset names (R61, R62), the words of an
operand slot (R63), and the reserved offsets, words and bits (R65). -/

namespace Sys2Proof.Machine

/-! ## The location an offset names -/

/-- An aligned offset of the window survives its word index (R62). -/
theorem byteOffset_indexOf {o : Nat} (h4 : o % 4 = 0) (ho : o < 0x800) : byteOffset (indexOf o) = o := by
  simp only [byteOffset, indexOf, BitVec.toNat_ofNat]
  omega

theorem slotOffset_lt {r : OperandReg} {j : Nat} (hj : j < 16) : slotOffset r + 4 * j < 0x800 := by
  cases r <;> simp only [slotOffset] <;> omega

theorem slotOffset_aligned (r : OperandReg) (j : Nat) : (slotOffset r + 4 * j) % 4 = 0 := by
  cases r <;> simp only [slotOffset] <;> omega

/-- The 16 words of a slot, whatever the build (R61). -/
theorem locateOffset_slot (r : OperandReg) {j : Nat} (hj : j < 16) :
    locateOffset (slotOffset r + 4 * j) = .operand r j := by
  have hword : 4 * j / 4 = j := Nat.mul_div_cancel_left j (by decide)
  cases r with
  | m | a | b =>
    simp (disch := omega) only [slotOffset, locateOffset, if_pos, if_neg, Nat.add_sub_cancel_left, hword]
  | f i =>
    have hslot : Fin.ofNat 16 ((0x40 * i.val + 4 * j) / 0x40) = i := by
      apply Fin.ext
      simp only [Fin.ofNat]
      omega
    have hrest : (0x40 * i.val + 4 * j) % 0x40 / 4 = j := by omega
    simp (disch := omega) only [slotOffset, locateOffset, if_neg, Nat.add_assoc, Nat.add_sub_cancel_left, hslot, hrest]

/-- Of the 16 words of a slot a build has the first NW, and the others are reserved (R61, R65). -/
theorem locate_slot (b : Build) (r : OperandReg) {j : Nat} (hj : j < 16) :
    locate b (indexOf (slotOffset r + 4 * j)) = if j < b.nw then .operand r j else .reserved := by
  unfold locate
  rw [byteOffset_indexOf (slotOffset_aligned r j) (slotOffset_lt hj), locateOffset_slot r hj]

theorem locate_slot_reserved {b : Build} (r : OperandReg) {j : Nat} (hnw : b.nw ≤ j) (hj : j < 16) :
    locate b (indexOf (slotOffset r + 4 * j)) = .reserved := by
  rw [locate_slot b r hj, if_neg (by omega)]

/-- The two gaps between the registers of the address map (R61). -/
theorem locate_gap (b : Build) {o : Nat} (h4 : o % 4 = 0)
    (h : (0x018 ≤ o ∧ o < 0x040) ∨ (0x100 ≤ o ∧ o < 0x400)) : locate b (indexOf o) = .reserved := by
  have hgap : locateOffset o = .reserved := by
    rcases h with ⟨hlo, hhi⟩ | ⟨hlo, hhi⟩ <;> simp (disch := omega) only [locateOffset, if_pos, if_neg]
  unfold locate
  rw [byteOffset_indexOf h4 (by omega), hgap]

/-! ## What an access of a reserved location, of STATUS or of PINF does -/

theorem readWord_of_reserved {s : State} {i : WordIndex} (h : locate s.build i = .reserved) : s.readWord i = 0#32 := by
  simp [State.readWord, h]

/-- A write of a reserved location is ignored, and sets no WDROP even while busy (R65). -/
theorem writeWord_of_reserved {s : State} {i : WordIndex} (h : locate s.build i = .reserved) (v : Word) :
    s.writeWord i v = s := by
  simp [State.writeWord, h]

@[simp] theorem readWord_status (s : State) : s.readWord (indexOf 0x00C) = s.status.toWord := rfl
@[simp] theorem writeWord_status (s : State) (v : Word) : s.writeWord (indexOf 0x00C) v = s.acknowledge v := rfl

theorem writeWord_pinf (s : State) (v : Word) :
    s.writeWord (indexOf 0x014) v =
      s.writeWhenIdle { s with regs := { s.regs with pinf := v.extractLsb' 0 8 } } := rfl

/-! ## Reserved bits -/

/-- Bits 31:1 of CTRL read 0 (R28), as one field. -/
theorem ctrlWord_reserved_field (ie : Bool) : (ctrlWord ie).extractLsb' 1 31 = 0#31 := by
  cases ie <;> rfl

/-- The W1C write of STATUS looks at bits 1 and 3 only (R26). -/
theorem writeOneToClear_congr (st : Status) {v w : Word} (h1 : v.getLsbD 1 = w.getLsbD 1)
    (h3 : v.getLsbD 3 = w.getLsbD 3) : st.writeOneToClear v = st.writeOneToClear w := by
  unfold Status.writeOneToClear
  rw [h1, h3]

/-! ## The next state of an access -/

/-- A step takes the first coming event (R72). -/
theorem step_of_inputs {s : State} {e : Input} {es : List Input} (h : s.env.inputs = e :: es) :
    step s = (s.withInputs es).applyInput e := by
  simp [step, State.nextEvent, h]

/-- Settles O52. -/
theorem reservedLocationsReadZeroAndIgnoreWrites : Obligations.ReservedLocationsReadZeroAndIgnoreWrites := by
  refine ⟨fun s o h4 ho => ?location, fun s v w h => ?ctrl, fun s v w h1 h3 => ?status, fun s v w h => ?pinf,
    fun s => ?bits, fun s a es h => ?access⟩
  case location =>
    have hres : locate s.build (indexOf o) = .reserved := by
      rcases ho with hlow | hmid | ⟨base, j, hbase, hnw, hj, rfl⟩
      · exact locate_gap _ h4 (.inl hlow)
      · exact locate_gap _ h4 (.inr hmid)
      · rcases hbase with rfl | rfl | rfl | ⟨i, hi, rfl⟩
        · exact locate_slot_reserved .m hnw hj
        · exact locate_slot_reserved .a hnw hj
        · exact locate_slot_reserved .b hnw hj
        · exact locate_slot_reserved (.f ⟨i, hi⟩) hnw hj
    exact ⟨readWord_of_reserved hres, writeWord_of_reserved hres⟩
  case ctrl => rw [writeWord_ctrl, writeWord_ctrl, h]
  case status =>
    rw [writeWord_status, writeWord_status, State.acknowledge, State.acknowledge, writeOneToClear_congr _ h1 h3]
  case pinf => rw [writeWord_pinf, writeWord_pinf, h]
  case bits =>
    obtain ⟨-, -, -, -, hlow, -, hhigh⟩ := status_bits s.status
    exact ⟨ctrlWord_reserved_field s.ie, hlow, hhigh, pinfWord_reserved s.regs.pinf⟩
  case access =>
    obtain ⟨t, ht, -⟩ := applyInput_applies (s.withInputs es) (.access a)
    exact ⟨t, (step_of_inputs h).trans ht⟩

end Sys2Proof.Machine
end

section
/-! PROOFS. The words that are ILLEGAL (spec/30_encoding.md R86): the decoder's errors and the words of no row of R84, each
reduced to the fields of the word (R80), the acceptance of such a word and its completion. -/

namespace Sys2Proof

/-! ## The decoder, by the fields of the word -/

/-- A field of kind p that names no point register (R81). -/
theorem isPointField_eq_false_iff (n : RegField) : isPointField n = false ↔ 8 ≤ n.toNat := by
  revert n; decide

/-- An answer of the decoder is an error when it is no command. -/
theorem exists_error_iff (r : Except DecodeError Instr) : (∃ e, r = .error e) ↔ ¬ ∃ i, r = .ok i := by
  cases r <;> simp

/-- R86 (c) and (d): when `checkFields` refuses a command. -/
theorem checkFields_error_iff (u p : List RegField) (i : Instr) :
    (∃ e, checkFields u p i = .error e) ↔ (∃ z ∈ u, z ≠ 0#4) ∨ ∃ n ∈ p, 8 ≤ n.toNat := by
  simp only [exists_error_iff, checkFields_eq_ok, ← isPointField_eq_false_iff]
  simp [imp_iff_not_or]

/-- R86 (b): reserved bits are an error whatever the rest of the word. -/
theorem decode_error_of_rsv {w : Word} (h : rsvField w ≠ 0#12) : ∃ e, decode w = .error e :=
  ⟨.reservedBits (rsvField w), by simp [decode, h]⟩

/-! ## The rows, by the fields of the word -/

/-- The five fields are all of a word (R80). -/
theorem word_eq_iff_fields (v w : Word) : v = w ↔ opcField v = opcField w ∧ dField v = dField w ∧
    s1Field v = s1Field w ∧ s2Field v = s2Field w ∧ rsvField v = rsvField w := by
  constructor
  · rintro rfl
    exact ⟨rfl, rfl, rfl, rfl, rfl⟩
  · intro h
    simp only [opcField, dField, s1Field, s2Field, rsvField, ← BitVec.toNat_inj, BitVec.extractLsb'_toNat,
      Nat.shiftRight_eq_div_pow] at h ⊢
    have hv := v.isLt
    have hw := w.isLt
    omega

/-- A row compares the word field by field, under the fields of its mask (R84). -/
theorem selects_iff_fields (r : OpcodeRow) (w : Word) : r.selects w = true ↔
    opcField w &&& opcField r.mask = opcField r.value ∧ dField w &&& dField r.mask = dField r.value ∧
    s1Field w &&& s1Field r.mask = s1Field r.value ∧ s2Field w &&& s2Field r.mask = s2Field r.value ∧
    rsvField w &&& rsvField r.mask = rsvField r.value := by
  simp only [OpcodeRow.selects, beq_iff_eq, word_eq_iff_fields, opcField, dField, s1Field, s2Field, rsvField,
    BitVec.extractLsb'_and]

/-- The mask 8 of a field of kind p tests bit 3 (R81, R84). -/
theorem and_eight_ne_zero_iff (n : RegField) : ¬ n &&& 8#4 = 0#4 ↔ 8 ≤ n.toNat := by
  revert n; decide

/-- The mask 15 of a field of kind z tests all of it (R81, R84). -/
theorem and_fifteen_eq (n : RegField) : n &&& 15#4 = n := BitVec.and_allOnes

/-- A row of R84 refuses a word for its OPC, for its RSV, or for an operand field that is not 0 under the row's mask: bit 3
of a field of kind p, any bit of a field of kind z (R81). -/
theorem selects_eq_false_iff {r : OpcodeRow} (hr : r ∈ opcodeRows) (w : Word) : r.selects w = false ↔
    opcField w ≠ opcField r.value ∨ rsvField w ≠ 0#12 ∨ dField w &&& dField r.mask ≠ 0#4 ∨
    s1Field w &&& s1Field r.mask ≠ 0#4 ∨ s2Field w &&& s2Field r.mask ≠ 0#4 := by
  have hshape : ∀ r ∈ opcodeRows, opcField r.mask = BitVec.allOnes 8 ∧ rsvField r.mask = BitVec.allOnes 12 ∧
      dField r.value = 0#4 ∧ s1Field r.value = 0#4 ∧ s2Field r.value = 0#4 ∧ rsvField r.value = 0#12 := by decide
  obtain ⟨hopc, hrsv, hd, hs1, hs2, hv⟩ := hshape r hr
  rw [← Bool.not_eq_true, selects_iff_fields, hopc, hrsv, hd, hs1, hs2, hv, BitVec.and_allOnes, BitVec.and_allOnes]
  tauto

end Sys2Proof

namespace Sys2Proof.Machine

/-! ## The words of R86 -/

theorem mem_definedOpcodes_iff (opc : BitVec 8) : opc ∈ definedOpcodes ↔ opc = 0x01#8 ∨ opc = 0x02#8 ∨
    opc = 0x03#8 ∨ opc = 0x10#8 ∨ opc = 0x11#8 ∨ opc = 0x12#8 ∨ opc = 0x13#8 := by
  simp [definedOpcodes]

/-- R86 (a): a reserved opcode is an error. -/
theorem decode_error_of_opc {w : Word} (h : opcField w ∉ definedOpcodes) : ∃ e, decode w = .error e := by
  simp only [mem_definedOpcodes_iff, not_or] at h
  by_cases hrsv : rsvField w = 0#12
  · exact ⟨.reservedOpcode (opcField w), by simp [decode, hrsv, h]⟩
  · exact decode_error_of_rsv hrsv

/-- Every row of R84 is of a defined opcode. -/
theorem row_opcode_mem : ∀ {r : OpcodeRow}, r ∈ opcodeRows → opcField r.value ∈ definedOpcodes := by
  decide

/-- R86 against the decoder: RSV and OPC first, and under a defined opcode the operand fields that `checkFields` is given. -/
theorem illegalWord_iff_decode_error (w : Word) : IllegalWord w ↔ ∃ e, decode w = .error e := by
  by_cases hrsv : rsvField w = 0#12
  case neg => exact ⟨fun _ => decode_error_of_rsv hrsv, fun _ => .inr (.inl hrsv)⟩
  by_cases hopc : opcField w ∈ definedOpcodes
  case neg => exact ⟨fun _ => decode_error_of_opc hopc, fun _ => .inl hopc⟩
  unfold IllegalWord
  rw [mem_definedOpcodes_iff] at hopc
  rcases hopc with h | h | h | h | h | h | h <;>
    simp [mem_definedOpcodes_iff, decode, h, hrsv, checkFields_error_iff, or_left_comm, or_assoc]

/-- R86 against the rows of R84: the same split, and under a defined opcode the operand fields its row's mask looks at. -/
theorem illegalWord_iff_no_row (w : Word) : IllegalWord w ↔ ∀ r ∈ opcodeRows, r.selects w = false := by
  rw [forall₂_congr fun r hr => selects_eq_false_iff hr w]
  unfold IllegalWord
  generalize opcField w = opc, dField w = d, s1Field w = s1, s2Field w = s2, rsvField w = rsv
  by_cases hrsv : rsv = 0#12
  case neg => simp [hrsv]
  by_cases hopc : opc ∈ definedOpcodes
  case neg => exact ⟨fun _ r hr => .inl fun h => hopc (h ▸ row_opcode_mem hr), fun _ => .inl hopc⟩
  rw [mem_definedOpcodes_iff] at hopc
  rcases hopc with rfl | rfl | rfl | rfl | rfl | rfl | rfl <;>
    simp [opcodeRows, opcField, dField, s1Field, s2Field, mem_definedOpcodes_iff, hrsv, and_eight_ne_zero_iff,
      and_fifteen_eq]
  -- PDBL and PVERIFY: R86 names the unused S2 first, the row last.
  all_goals exact or_rotate

/-! ## Acceptance and completion -/

theorem writeWord_cmd_of_idle {s : State} (v : Word) (h : s.status.busy = false) :
    s.writeWord (indexOf 0x010) v = s.accept v := writeWhenIdle_of_idle _ h

theorem accept_latch_word (s : State) (c : Word) : ∃ l, (s.accept c).latch = some l ∧ l.word = c := by
  obtain ⟨n, env, h, -, -⟩ := accept_spec s c
  exact ⟨_, by rw [h, acceptWith_latch], rfl⟩

/-- The last clock of a latched word that is no command (R86, R181). -/
theorem clock_of_decode_error {s : State} {l : Latch} {e : DecodeError} (hl : s.latch = some l)
    (hr : l.remaining = 0) (hd : decode l.word = .error e) : s.clock = .next (s.raise .illegal) := by
  simp [State.clock, hl, hr, State.completeCommand, hd]

/-- Settles O3. -/
theorem illegalWordsAreAcceptedAndCompleteWithIllegal : Obligations.IllegalWordsAreAcceptedAndCompleteWithIllegal := by
  refine ⟨illegalWord_iff_decode_error, illegalWord_iff_no_row, fun s w hidle _ => ?accepted,
    fun s l hl hr hw => ?completes⟩
  case accepted =>
    rw [writeWord_cmd_of_idle w hidle, accept_status]
    exact ⟨rfl, rfl, accept_latch_word s w⟩
  case completes =>
    obtain ⟨e, hd⟩ := (illegalWord_iff_decode_error l.word).mp hw
    exact ⟨_, clock_of_decode_error hl hr hd, raise_regs _ _, raise_ie _ _, rfl⟩

end Sys2Proof.Machine
end

section
/-! PROOFS. The life of a command and the interrupt line (spec/60_exceptions.md R180, R183, R184, R190, R191): what an
access of CMD does, the one clock in which a latched command completes, and the level of irq after each of them. -/

namespace Sys2Proof.Machine

/-! ## Accesses of CMD -/

@[simp] theorem readWord_cmd (s : State) : s.readWord (indexOf 0x010) = 0#32 := rfl

theorem hostAccess_read (s : State) (i : WordIndex) :
    s.hostAccess (.read i) = { s with env := { s.env with answer := some (s.readWord i) } } := rfl

@[simp] theorem hostAccess_write (s : State) (i : WordIndex) (v : Word) :
    s.hostAccess (.write i v) = s.writeWord i v := rfl

theorem writeWhenIdle_of_busy {s : State} (t : State) (h : s.status.busy = true) : s.writeWhenIdle t = s.dropWrite := by
  simp [State.writeWhenIdle, h]

theorem writeWord_cmd_of_busy {s : State} (v : Word) (h : s.status.busy = true) :
    s.writeWord (indexOf 0x010) v = s.dropWrite := writeWhenIdle_of_busy _ h

/-- The latch after acceptance holds the word and the snapshot, and some delay (R180, R220). -/
theorem accept_latch (s : State) (c : Word) :
    ∃ n, (s.accept c).latch = some { word := c, snap := s.regs, remaining := n } := by
  obtain ⟨n, env, h, -, -⟩ := accept_spec s c
  exact ⟨n, by rw [h, acceptWith_latch]⟩

/-- Settles O14. -/
theorem cmdWriteWhileIdleAcceptsTheWord : Obligations.CmdWriteWhileIdleAcceptsTheWord := by
  intro s c
  refine ⟨fun hidle => ?accepted, fun hbusy => writeWord_cmd_of_busy c hbusy, readWord_cmd s, hostAccess_read s _⟩
  rw [writeWord_cmd_of_idle c hidle]
  exact ⟨accept_latch s c, accept_status s c, accept_regs s c, accept_ie s c⟩

/-! ## The completing clock -/

/-- Whatever a command does when it completes, it is a completion with the code and VALID it leaves (R183, R184). -/
theorem completedWith_of_completes {s t : State} {i : Instr} (h : Completes s i t) :
    CompletedWith s t t.status.err t.status.valid := by
  cases h with
  | modmul | modpow | modinv | pverify => exact commit_completedWith s _ _ rfl rfl rfl
  | pdbl | padd | pmul => exact commit_completedWith s _ _ (wrpt_m _ _ _) (wrpt_a _ _ _) (wrpt_b _ _ _)
  | error _ e => exact (raise_errorResult s e).completed

/-- The clock of a latched command with no clock left is a completion, of a command or of an ILLEGAL word (R181). -/
theorem completedWith_of_clocks {s t : State} {l : Latch} (h : Clocks s t) (hl : s.latch = some l)
    (hr : l.remaining = 0) : CompletedWith s t t.status.err t.status.valid := by
  cases h with
  | idle hnone => simp [hl] at hnone
  | busy l' n hl' hr' =>
    obtain rfl : l' = l := Option.some.inj (hl'.symm.trans hl)
    omega
  | command _ _ _ _ _ _ _ ht => exact completedWith_of_completes ht
  | illegal => exact (raise_errorResult s .illegal).completed

theorem clock_completes {s : State} {l : Latch} (hl : s.latch = some l) (hr : l.remaining = 0) :
    ∃ t, s.clock = .next t ∧ CompletedWith s t t.status.err t.status.valid := by
  obtain ⟨t, ht, hc⟩ := clock_clocks s
  exact ⟨t, ht, completedWith_of_clocks hc hl hr⟩

/-- While a command is latched, the clock follows the access it shares its clock with (R191; log 6). -/
theorem accessInClock_of_latched {s : State} {l : Latch} (a : Access) (hl : s.latch = some l) :
    s.accessInClock a = (s.hostAccess a).clock := by
  simp [State.accessInClock, hl]

/-! ## The interrupt line -/

theorem irq_of_not_done {s : State} (h : s.status.done = false) : s.irq = false := by
  simp [State.irq, h]

theorem irq_of_not_enabled {s : State} (h : s.ie = false) : s.irq = false := by
  simp [State.irq, h]

theorem irq_of_completedWith {s t : State} {err : BitVec 4} {valid : Bool} (h : CompletedWith s t err valid) :
    t.irq = s.ie := by
  simp [State.irq, h.done, h.ie]

/-- Settles O54. -/
theorem irqIsDoneAndEnable : Obligations.IrqIsDoneAndEnable := by
  refine ⟨fun _ => rfl, fun s v hv => ?acknowledged, fun s v hv => ?disabled, fun s c hidle => ?accepted,
    fun s t l hl hr ht => ?completed, fun _ _ _ => rfl, fun _ => rfl⟩
  case acknowledged =>
    rw [writeWord_status]
    exact irq_of_not_done (by rw [acknowledge_done, hv, Bool.not_true, Bool.and_false])
  case disabled =>
    rw [writeWord_ctrl]
    exact irq_of_not_enabled hv
  case accepted =>
    rw [writeWord_cmd_of_idle c hidle]
    exact irq_of_not_done (by rw [accept_status]; rfl)
  case completed =>
    obtain ⟨u, hu, hc⟩ := clock_completes hl hr
    obtain rfl : u = t := Host.Outcome.next.inj (hu.symm.trans ht)
    exact irq_of_completedWith hc

/-- Settles O55: the clock comes after the write of STATUS, and the write keeps the latch. -/
theorem completionWinsOverClearingDone : Obligations.CompletionWinsOverClearingDone := by
  intro s l v es _ hl hr hes
  have hstep : step s = ((s.withInputs es).acknowledge v).clock := by
    rw [step_of_inputs hes, State.applyInput, accessInClock_of_latched (s := s.withInputs es) _ hl, hostAccess_write,
      writeWord_status]
  obtain ⟨t, ht, hc⟩ := clock_completes (s := (s.withInputs es).acknowledge v) hl hr
  have hirq := irq_of_completedWith hc
  rw [acknowledge_ie, withInputs_ie] at hirq
  exact ⟨t, hstep.trans ht, hc.notBusy, hc.done, hirq⟩

end Sys2Proof.Machine
end

section
/-! PROOFS. Reset and hazards (spec/70_reset_and_hazards.md R210, R211, R215, R218): what a host write does, said once
for each kind of location, which of them a busy engine drops, what keeps the infinity flags, the values reset leaves,
and that no event but reset ends a command that still has clocks to wait. -/

namespace Sys2Proof.Machine

/-! ## A host write, by the location it names -/

section
variable {s : State} {i : WordIndex} (v : Word)

theorem writeWord_of_id (h : locate s.build i = .id) : s.writeWord i v = s := by
  simp [State.writeWord, h]

theorem writeWord_of_param (h : locate s.build i = .param) : s.writeWord i v = s := by
  simp [State.writeWord, h]

theorem writeWord_of_ctrl (h : locate s.build i = .ctrl) : s.writeWord i v = { s with ie := v.getLsbD 0 } := by
  simp [State.writeWord, h]

theorem writeWord_of_status (h : locate s.build i = .status) : s.writeWord i v = s.acknowledge v := by
  simp [State.writeWord, h]

theorem writeWord_of_cmd (h : locate s.build i = .cmd) : s.writeWord i v = s.writeWhenIdle (s.accept v) := by
  simp [State.writeWord, h]

theorem writeWord_of_pinf (h : locate s.build i = .pinf) :
    s.writeWord i v = s.writeWhenIdle { s with regs := { s.regs with pinf := v.extractLsb' 0 8 } } := by
  simp [State.writeWord, h]

theorem writeWord_of_operand {r : OperandReg} {j : Nat} (h : locate s.build i = .operand r j) :
    s.writeWord i v = s.writeWhenIdle { s with regs := s.regs.set r (replaceWord (s.regs.get r) j v) } := by
  simp [State.writeWord, h]

end

/-- Settles O53. -/
theorem writesWhileBusyAreDroppedOrPerformed : Obligations.WritesWhileBusyAreDroppedOrPerformed := by
  intro s i v hbusy
  refine ⟨fun h => ?dropped, writeWord_of_ctrl v, fun h => ?status, fun h => ?ignored⟩
  case dropped =>
    rcases h with h | h | ⟨r, j, h⟩
    · rw [writeWord_of_cmd v h]; exact writeWhenIdle_of_busy _ hbusy
    · rw [writeWord_of_pinf v h]; exact writeWhenIdle_of_busy _ hbusy
    · rw [writeWord_of_operand v h]; exact writeWhenIdle_of_busy _ hbusy
  case status =>
    rw [writeWord_of_status v h]
    exact ⟨acknowledge_wdrop s v, acknowledge_done s v, acknowledge_regs s v⟩
  case ignored =>
    rcases h with h | h | h
    · exact writeWord_of_id v h
    · exact writeWord_of_param v h
    · exact writeWord_of_reserved h v

/-! ## The infinity flags -/

/-- Coordinates and flags are apart (10_state.md R23). -/
@[simp] theorem set_pinf (r : Regs) (o : OperandReg) (v : Nat) : (r.set o v).pinf = r.pinf := by
  cases o <;> rfl

theorem writeWord_operand_pinf {s : State} {i : WordIndex} {r : OperandReg} {j : Nat} (v : Word)
    (h : locate s.build i = .operand r j) : (s.writeWord i v).regs.pinf = s.regs.pinf := by
  rw [writeWord_of_operand v h]
  cases hbusy : s.status.busy with
  | true => rw [writeWhenIdle_of_busy _ hbusy, dropWrite_regs]
  | false => rw [writeWhenIdle_of_idle _ hbusy, set_pinf]

/-- A field command's completion, with or without error, leaves the flags. -/
theorem finishField_pinf (s : State) (d : RegField) (result : Except ErrCode Nat) :
    (s.finishField d result).regs.pinf = s.regs.pinf := by
  cases result with
  | ok v => exact (finishField_ok s d v).pinf
  | error e => rw [(finishField_error s d e).regs]

/-- Settles O41. -/
theorem writingCoordinatesLeavesTheInfinityFlags : Obligations.WritingCoordinatesLeavesTheInfinityFlags := by
  refine ⟨fun s i v r j h => writeWord_operand_pinf v h, fun s t d s1 s2 h => ?field, fun _ n => reset_getInf n,
    rdpt_of_inf⟩
  case field =>
    rcases h with h | h | h <;> cases h <;> exact finishField_pinf s d _

/-! ## The values of reset -/

@[simp] theorem reset_getF (i : Fin 16) : Regs.reset.getF i = 0 := by
  simp [Regs.getF, Regs.reset]

/-- The upper half of PARAM is {NP, NF} in every build (R34). -/
theorem paramWord_counts (b : Build) : (paramWord b).extractLsb' 16 16 = 0x0810#16 := by
  obtain ⟨n⟩ := b
  revert n
  decide

/-- STATUS reads 0 after reset (R210). -/
theorem statusWord_reset : Status.reset.toWord = 0x00000000#32 := by decide

/-- A coming reset is taken by the next step (R210). -/
theorem step_of_reset {s : State} {es : List Input} (h : s.env.inputs = .reset :: es) :
    step s = .next (s.withInputs es).resetEvent := step_of_inputs h

/-- Settles O12: the reset state and the state after the reset event differ in the host's side only, which no value of
R210 reads. -/
theorem resetLeavesTheStatedValues : Obligations.ResetLeavesTheStatedValues := by
  unfold Obligations.ResetLeavesTheStatedValues
  intro ResetValues
  have values : ∀ (b : Build) (env : Env), ResetValues { State.resetFor b with env := env } := by
    intro b env
    obtain ⟨hw, -, -⟩ := paramWord_fields b
    exact ⟨reset_getF, rfl, rfl, rfl, rfl, pinfWord_reset, rfl, rfl, rfl, statusWord_reset, rfl, hw, paramWord_counts b,
      rfl, rfl⟩
  refine ⟨fun b => ⟨values b Env.reset, resetFor_build b⟩, fun s es h => ?event⟩
  case event =>
    exact ⟨_, step_of_reset h, values s.build (s.withInputs es).env, rfl⟩

/-! ## The end of a command -/

/-- From s to t the command of the latch l is still in the engine, with no more clocks to wait than before, and no
register has been written. -/
def GoesOn (s t : State) (l : Latch) : Prop :=
  t.status.busy = true ∧ t.regs = s.regs ∧ ∃ n, t.latch = some { l with remaining := n } ∧ n ≤ l.remaining

/-- A clock of a command that has clocks left counts one of them (R220). -/
theorem goesOn_of_clocks {s t : State} {l : Latch} (h : Clocks s t) (hbusy : s.status.busy = true)
    (hl : s.latch = some l) (hr : 0 < l.remaining) : GoesOn s t l := by
  have same : ∀ {l' : Latch}, s.latch = some l' → l' = l := fun hl' => Option.some.inj (hl'.symm.trans hl)
  cases h with
  | idle hnone => simp [hl] at hnone
  | busy l' n hl' hr' =>
    obtain rfl := same hl'
    exact ⟨hbusy, rfl, n, rfl, by omega⟩
  | command l' hl' hr' =>
    obtain rfl := same hl'
    omega
  | illegal l' hl' hr' =>
    obtain rfl := same hl'
    omega

/-- A host access while busy leaves the latch as it is (R215). -/
theorem goesOn_of_hostAccess {s : State} {l : Latch} (a : Access) (hbusy : s.status.busy = true)
    (hl : s.latch = some l) : GoesOn s (s.hostAccess a) l := by
  obtain ⟨hregs, hlatch, -, hbusy', -⟩ := hostAccess_busy s a hbusy
  exact ⟨hbusy', hregs, l.remaining, hlatch.trans hl, le_rfl⟩

/-- Reset is the only event that ends a command with clocks left (R211). -/
theorem goesOn_of_applies {s t : State} {e : Input} {l : Latch} (h : Applies s e t) (he : e ≠ .reset)
    (hbusy : s.status.busy = true) (hl : s.latch = some l) (hr : 0 < l.remaining) : GoesOn s t l := by
  cases h with
  | clock _ hc => exact goesOn_of_clocks hc hbusy hl hr
  | access a | accessIdle a => exact goesOn_of_hostAccess a hbusy hl
  | accessBusy a _ _ _ hc =>
    obtain ⟨hregs, hlatch, -, hbusy', -⟩ := hostAccess_busy s a hbusy
    obtain ⟨htbusy, htregs, hwait⟩ := goesOn_of_clocks hc hbusy' (hlatch.trans hl) hr
    exact ⟨htbusy, htregs.trans hregs, hwait⟩
  | reset => exact absurd rfl he

/-- Settles O13. -/
theorem onlyResetEndsACommandEarly : Obligations.OnlyResetEndsACommandEarly := by
  intro s t l hbusy hl hstep
  refine ⟨fun es hes => ?reset, fun hhead hr => ?goesOn⟩
  case reset =>
    obtain rfl := Host.Outcome.next.inj ((step_of_reset hes).symm.trans hstep)
    rfl
  case goesOn =>
    rcases step_cases hstep with ⟨-, hc⟩ | ⟨e, es, hes, ha⟩
    · exact goesOn_of_clocks hc hbusy hl hr
    · have he : e ≠ .reset := fun h => hhead (by rw [hes, h, List.head?_cons])
      exact goesOn_of_applies (s := s.withInputs es) ha he hbusy hl hr

end Sys2Proof.Machine
end

section
/-! PROOFS. The command encoding (spec/30_encoding.md R80, R81, R84, R86): the decoder and the encoder are inverse to each
other on the well-formed commands, and the row of R84 that selects a legal word is the row of its command. -/

namespace Sys2Proof

/-! ## Decoder and encoder -/

/-- The decoder answers a command exactly for the command's own word, and only if its point operands name point
registers: both directions of the encoding at once. -/
theorem decode_eq_ok_iff (w : Word) (i : Instr) : decode w = .ok i ↔ encode i = w ∧ i.wellFormed = true := by
  constructor
  · intro h
    have hrsv : rsvField w = 0#12 := by
      by_contra hrsv
      obtain ⟨e, he⟩ := decode_error_of_rsv hrsv
      simp [he] at h
    rw [← commandWord_of_fields w hrsv] at h ⊢
    rw [decode_commandWord] at h
    generalize opcField w = opc, dField w = d, s1Field w = s1, s2Field w = s2 at h ⊢
    split_ifs at h <;> simp only [Except.ok.injEq, checkFields_eq_ok] at h
    -- MODMUL and MODPOW have no field to check, the other rows the fields of `checkFields`.
    iterate 2
      · subst h
        simp_all [encode, Instr.wellFormed]
    all_goals
      obtain ⟨hunused, hpoint, rfl⟩ := h
      simp_all [encode, Instr.wellFormed]
  · rintro ⟨rfl, hwf⟩
    cases i <;> simp_all [encode, decode_commandWord, checkFields_eq_ok, Instr.wellFormed]

/-- Settles O1. -/
theorem wellFormedCommandsDecodeFromTheirWords : Obligations.WellFormedCommandsDecodeFromTheirWords :=
  fun i hwf => (decode_eq_ok_iff (encode i) i).mpr ⟨rfl, hwf⟩

/-- Settles O2. -/
theorem decodedWordsAreTheirCommandsEncodings : Obligations.DecodedWordsAreTheirCommandsEncodings :=
  fun w i h => (decode_eq_ok_iff w i).mp h

/-- Settles O5. -/
theorem sampleWordsDecode : Obligations.SampleWordsDecode := by
  unfold Obligations.SampleWordsDecode
  decide

/-! ## The rows of R84 -/

/-- A row compares all of OPC. -/
theorem opcField_of_selects {r : OpcodeRow} (hr : r ∈ opcodeRows) {w : Word} (h : r.selects w = true) :
    opcField w = opcField r.value := by
  by_contra hopc
  simp [(selects_eq_false_iff hr w).mpr (.inl hopc)] at h

theorem row_ext_opcode : ∀ r ∈ opcodeRows, ∀ r' ∈ opcodeRows, opcField r.value = opcField r'.value → r = r' := by
  decide

theorem row_ext_mnemonic : ∀ r ∈ opcodeRows, ∀ r' ∈ opcodeRows, r.mnemonic = r'.mnemonic → r = r' := by
  decide

theorem opcField_encode (i : Instr) : opcField (encode i) = Laws.EncodedFields.opcode i := by
  cases i <;> exact Laws.EncodedFields.commandWord_opc _ _ _ _

/-- The row with a command's opcode has its mnemonic. -/
theorem row_mnemonic_of_opcode (i : Instr) :
    ∀ r ∈ opcodeRows, opcField r.value = Laws.EncodedFields.opcode i → r.mnemonic = i.mnemonic := by
  cases i <;> simp only [Laws.EncodedFields.opcode, Instr.mnemonic] <;> decide

/-- The rows that select a legal word are named as its command. -/
theorem mnemonic_of_selects {w : Word} {i : Instr} (hd : decode w = .ok i) {r : OpcodeRow} (hr : r ∈ opcodeRows)
    (h : r.selects w = true) : r.mnemonic = i.mnemonic := by
  obtain ⟨rfl, -⟩ := (decode_eq_ok_iff w i).mp hd
  exact row_mnemonic_of_opcode i r hr ((opcField_of_selects hr h).symm.trans (opcField_encode i))

/-- A legal word is a word of some row (R86). -/
theorem exists_row_of_decode {w : Word} {i : Instr} (hd : decode w = .ok i) : ∃ r ∈ opcodeRows, r.selects w = true := by
  by_contra hnone
  have hall : ∀ r ∈ opcodeRows, r.selects w = false := by simpa using hnone
  rw [← Machine.illegalWord_iff_no_row, Machine.illegalWord_iff_decode_error] at hall
  obtain ⟨e, he⟩ := hall
  simp [he] at hd

/-- Settles O4. -/
theorem everyLegalWordHasExactlyItsOwnRow : Obligations.EveryLegalWordHasExactlyItsOwnRow := by
  refine ⟨fun w r r' hr hr' h h' => ?disjoint, fun w i hd r hr => ⟨mnemonic_of_selects hd hr, fun hname => ?own⟩⟩
  case disjoint =>
    exact row_ext_opcode r hr r' hr' ((opcField_of_selects hr h).symm.trans (opcField_of_selects hr' h'))
  case own =>
    obtain ⟨r', hr', h'⟩ := exists_row_of_decode hd
    obtain rfl := row_ext_mnemonic r hr r' hr' (hname.trans (mnemonic_of_selects hd hr' h').symm)
    exact h'

end Sys2Proof
end

section
/-! PROOFS. Steps (spec/20_memory.md R72, spec/60_exceptions.md R181, R220) and the invariant of the block (State.Inv): which
state each event answers, and that a completion, a clock, a host access and reset each keep the invariant. -/

namespace Sys2Proof.Machine

/-! ## One clock, by what the latch holds -/

theorem clock_of_idle {s : State} (h : s.latch = none) : s.clock = .next s := by
  simp [State.clock, h]

theorem clock_of_waiting {s : State} {l : Latch} {n : Nat} (hl : s.latch = some l) (hr : l.remaining = n + 1) :
    s.clock = .next { s with latch := some { l with remaining := n } } := by
  simp [State.clock, hl, hr]

theorem clock_of_ready {s : State} {l : Latch} (hl : s.latch = some l) (hr : l.remaining = 0) :
    s.clock = s.completeCommand l.word := by
  simp [State.clock, hl, hr]

theorem completeCommand_of_decode {c : Word} {i : Instr} (s : State) (hd : decode c = .ok i) :
    s.completeCommand c = exec i s := by
  simp [State.completeCommand, hd]

theorem clock_of_command {s : State} {l : Latch} {i : Instr} (hl : s.latch = some l) (hr : l.remaining = 0)
    (hd : decode l.word = .ok i) : s.clock = exec i s := by
  rw [clock_of_ready hl hr, completeCommand_of_decode s hd]

theorem accessInClock_of_idle {s : State} (a : Access) (h : s.latch = none) :
    s.accessInClock a = .next (s.hostAccess a) := by
  simp [State.accessInClock, h]

/-! ## One step, by the coming event -/

/-- With no event coming a clock passes (log 4). -/
theorem step_of_no_inputs {s : State} (h : s.env.inputs = []) : step s = s.clock := by
  simp [step, State.nextEvent, h]

theorem step_of_clock {s : State} {es : List Input} (h : s.env.inputs = .clock :: es) :
    step s = (s.withInputs es).clock := step_of_inputs h

theorem step_of_access {s : State} {a : Access} {es : List Input} (h : s.env.inputs = .access a :: es) :
    step s = .next ((s.withInputs es).hostAccess a) := step_of_inputs h

theorem step_of_accessInClock {s : State} {a : Access} {es : List Input} (h : s.env.inputs = .accessInClock a :: es) :
    step s = (s.withInputs es).accessInClock a := step_of_inputs h

/-- A host access in a clock of a busy engine leaves the latch, and then the engine has its clock (log 6). -/
theorem step_of_accessInClock_of_busy {s : State} {l : Latch} {a : Access} {es : List Input} (hbusy : s.status.busy = true)
    (hl : s.latch = some l) (h : s.env.inputs = .accessInClock a :: es) :
    step s = ((s.withInputs es).hostAccess a).clock ∧ ((s.withInputs es).hostAccess a).latch = some l := by
  obtain ⟨-, hlatch, -⟩ := hostAccess_busy (s.withInputs es) a hbusy
  exact ⟨(step_of_accessInClock h).trans (accessInClock_of_latched (s := s.withInputs es) a hl), hlatch.trans hl⟩

/-- Settles O6. -/
theorem stepRunsTheLatchedCommand : Obligations.StepRunsTheLatchedCommand := by
  intro s l i hl hr hd
  refine ⟨fun h => ?quiet, fun es h => ?clock, fun a es hbusy h => ?access⟩
  case quiet => rw [step_of_no_inputs h, clock_of_command hl hr hd]
  case clock => rw [step_of_clock h, clock_of_command (s := s.withInputs es) hl hr hd]
  case access =>
    obtain ⟨hstep, hlatch⟩ := step_of_accessInClock_of_busy hbusy hl h
    rw [hstep, clock_of_command hlatch hr hd]

/-- Settles O7. -/
theorem placedWordRunsInTheNextStep : Obligations.PlacedWordRunsInTheNextStep := by
  intro s nbits w i hw
  have hd : decode (tableWord nbits w) = .ok i := by
    unfold decodeTableWord at hw
    cases h : decode (tableWord nbits w) with
    | error e => simp [h, Except.toOption] at hw
    | ok j => simpa [h, Except.toOption] using hw
  have hinputs : (s.withFetchWord nbits w).env.inputs = .clock :: s.env.inputs := rfl
  have haccepted : (s.withFetchWord nbits w).withInputs s.env.inputs = s.acceptWith (tableWord nbits w) 0 := rfl
  rw [step_of_clock hinputs, haccepted]
  exact clock_of_command (acceptWith_latch _ _ _) rfl hd

/-- Settles O8. -/
theorem stepTakesTheNextEvent : Obligations.StepTakesTheNextEvent := by
  intro s
  refine ⟨fun a es h => step_of_access h, fun es h => step_of_reset h,
    fun hl => ⟨fun h => ?idleQuiet, fun es h => ?idleClock, fun a es h => ?idleAccess⟩,
    fun l n hl hr => ⟨fun h => ?waitQuiet, fun es h => ?waitClock, fun a es hbusy h => ?waitAccess⟩,
    fun l e hl hr hd => ⟨fun h => ?illegalQuiet, fun es h => ?illegalClock, fun a es hbusy h => ?illegalAccess⟩⟩
  case idleQuiet => rw [step_of_no_inputs h, clock_of_idle hl]
  case idleClock => rw [step_of_clock h, clock_of_idle (s := s.withInputs es) hl]
  case idleAccess => rw [step_of_accessInClock h, accessInClock_of_idle (s := s.withInputs es) a hl]
  case waitQuiet => rw [step_of_no_inputs h, clock_of_waiting hl hr]
  case waitClock => rw [step_of_clock h, clock_of_waiting (s := s.withInputs es) hl hr]
  case waitAccess =>
    obtain ⟨hstep, hlatch⟩ := step_of_accessInClock_of_busy hbusy hl h
    rw [hstep, clock_of_waiting hlatch hr]
  case illegalQuiet => rw [step_of_no_inputs h, clock_of_decode_error hl hr hd]
  case illegalClock => rw [step_of_clock h, clock_of_decode_error (s := s.withInputs es) hl hr hd]
  case illegalAccess =>
    obtain ⟨hstep, hlatch⟩ := step_of_accessInClock_of_busy hbusy hl h
    rw [hstep, clock_of_decode_error hlatch hr hd]

/-- Settles O9. -/
theorem everyStepAnswersANextState : Obligations.EveryStepAnswersANextState := by
  refine ⟨fun s => ?step, fun i s => ?command⟩
  case step =>
    cases h : s.env.inputs with
    | nil =>
      obtain ⟨t, ht, -⟩ := clock_clocks s
      exact ⟨t, (step_of_no_inputs h).trans ht⟩
    | cons e es =>
      obtain ⟨t, ht, -⟩ := applyInput_applies (s.withInputs es) e
      exact ⟨t, (step_of_inputs h).trans ht⟩
  case command =>
    obtain ⟨t, ht, -⟩ := exec_completes i s
    exact ⟨t, ht⟩

/-! ## The result of a command is in range -/

/-- 1 is a value of every operand register: MODPOW writes it for the exponent 0, also for M = 1 (90_conflicts.md C1). -/
theorem one_lt_two_pow_w (b : Build) : 1 < 2 ^ b.w := by
  have hw : b.w ≠ 0 := by
    unfold Build.w Build.nw
    omega
  exact Nat.one_lt_two_pow hw

theorem powmod_lt_of_le {base e m bound : Nat} (hm : 0 < m) (hle : m ≤ bound) (hone : 1 < bound) :
    powmod base e m < bound := by
  have hlt : base ^ e % m < m := Nat.mod_lt _ hm
  rw [powmod_eq base e m hm]
  split <;> omega

/-- What a field command computes fits the registers of a build that M fits (R22, R104). -/
theorem modmulResult_lt {r : Regs} {s1 s2 : RegField} {v : Nat} (h : modmulResult r s1 s2 = .ok v) : v < r.m := by
  unfold modmulResult at h
  split_ifs at h with hm
  injection h with h
  exact h ▸ mulmod_lt _ _ (Nat.pos_of_ne_zero hm)

theorem modpowResult_lt {r : Regs} {b : Build} {s1 s2 : RegField} {v : Nat} (hr : r.m < 2 ^ b.w)
    (h : modpowResult r s1 s2 = .ok v) : v < 2 ^ b.w := by
  unfold modpowResult at h
  split_ifs at h with hm
  injection h with h
  exact h ▸ powmod_lt_of_le (Nat.pos_of_ne_zero hm) hr.le (one_lt_two_pow_w b)

theorem modinvResult_lt {r : Regs} {b : Build} {s1 : RegField} {v : Nat} (hr : r.m < 2 ^ b.w)
    (h : modinvResult r s1 = .ok v) : v < 2 ^ b.w := by
  unfold modinvResult at h
  split_ifs at h with hm _
  injection h with h
  exact h ▸ powmod_lt_of_le (by omega) hr.le (one_lt_two_pow_w b)

/-- What a point command computes has coordinates below M (41_curve_point.md R130). -/
theorem pdblResult_reduced {r : Regs} {n : Fin 8} {p : Pt} (h : pdblResult r n = .ok p) : 0 < r.m ∧ p.Reduced r.m := by
  unfold pdblResult at h
  split_ifs at h with hm
  exact ⟨by omega, dbl_reduced (by omega) h⟩

theorem paddResult_reduced {r : Regs} {n k : Fin 8} {p : Pt} (h : paddResult r n k = .ok p) :
    0 < r.m ∧ p.Reduced r.m := by
  unfold paddResult at h
  split_ifs at h with hm
  have hpos : 0 < r.m := by omega
  exact ⟨hpos, add_reduced hpos (rdpt_reduced r n hpos) (rdpt_reduced r k hpos) h⟩

theorem pmulResult_reduced {r : Regs} {n : Fin 8} {k : RegField} {p : Pt} (h : pmulResult r n k = .ok p) :
    0 < r.m ∧ p.Reduced r.m := by
  unfold pmulResult at h
  split_ifs at h with hm
  have hpos : 0 < r.m := by omega
  exact ⟨hpos, smul_reduced hpos (rdpt_reduced r n hpos) h⟩

theorem wrpt_inRange_of_reduced {r : Regs} {b : Build} {m : Nat} {p : Pt} (h : r.InRange b) (n : Fin 8)
    (hm : m < 2 ^ b.w) (hp : 0 < m ∧ p.Reduced m) : (r.wrpt n p).InRange b := by
  obtain ⟨hx, hy⟩ := stored_lt hp.1 hp.2
  exact wrpt_inRange h n p (hx.trans hm) (hy.trans hm)

/-- A command that completes on a snapshot in range leaves its registers in range (R104). -/
theorem inRange_of_completes {s t : State} {i : Instr} {b : Build} (h : Completes s i t) (hr : s.regs.InRange b)
    (hsrc : s.sources.m < 2 ^ b.w) : t.regs.InRange b := by
  cases h with
  | modmul d s1 s2 v hv => exact setF_inRange hr _ v ((modmulResult_lt hv).trans hsrc)
  | modpow d s1 s2 v hv => exact setF_inRange hr _ v (modpowResult_lt hsrc hv)
  | modinv d s1 v hv => exact setF_inRange hr _ v (modinvResult_lt hsrc hv)
  | pdbl d s1 pd ps p _ _ hp => exact wrpt_inRange_of_reduced hr pd hsrc (pdblResult_reduced hp)
  | padd d s1 s2 pd self other p _ _ _ hp => exact wrpt_inRange_of_reduced hr pd hsrc (paddResult_reduced hp)
  | pmul d s1 s2 pd ps p _ _ hp => exact wrpt_inRange_of_reduced hr pd hsrc (pmulResult_reduced hp)
  | pverify | error => exact hr

/-! ## The code of a completion -/

theorem code_toNat_le (e : ErrCode) : e.code.toNat ≤ 3 := by
  cases e <;> decide

/-- A command's completion is a commit with code 0, or it raises an error (R183, R184). -/
theorem err_zero_or_raise_of_completes {s t : State} {i : Instr} (h : Completes s i t) :
    t.status.err = 0#4 ∨ ∃ e, t = s.raise e := by
  cases h with
  | modmul | modpow | modinv | pdbl | padd | pmul | pverify => exact .inl (commit_err _ _ _)
  | error _ e => exact .inr ⟨e, rfl⟩

theorem err_le_of_completes {s t : State} {i : Instr} (h : Completes s i t) : t.status.err.toNat ≤ 3 := by
  rcases err_zero_or_raise_of_completes h with h | ⟨e, rfl⟩
  · simp [h]
  · exact code_toNat_le e

/-! ## The invariant -/

theorem inv_withInputs {s : State} (h : s.Inv) (es : List Input) : (s.withInputs es).Inv :=
  ⟨h.inRange, h.err_le, h.busy_iff, h.busy_not_done, h.snapshot⟩

/-- While a command is latched its sources are the registers. -/
theorem sources_of_inv {s : State} (h : s.Inv) : s.sources = s.regs := by
  unfold State.sources
  split
  next l hl => exact h.snapshot l hl
  next => rfl

/-- A completion that leaves registers in range and one of the codes leaves a sound, idle state. -/
theorem inv_of_completedWith {s t : State} {err : BitVec 4} {valid : Bool} (h : CompletedWith s t err valid)
    (hr : t.regs.InRange s.build) (he : t.status.err.toNat ≤ 3) : t.Inv where
  inRange := h.build ▸ hr
  err_le := he
  busy_iff := by rw [h.notBusy, h.latch]; rfl
  busy_not_done hbusy := by simp [h.notBusy] at hbusy
  snapshot l hl := by simp [h.latch] at hl

theorem resetFor_inv (b : Build) : (State.resetFor b).Inv where
  inRange := by
    have hpos : 0 < 2 ^ b.w := Nat.two_pow_pos _
    exact ⟨fun i => by rw [resetFor_regs, reset_getF]; exact hpos, hpos, hpos, hpos⟩
  err_le := by simp [Status.reset]
  busy_iff := rfl
  busy_not_done h := by simp [Status.reset] at h
  snapshot l h := by simp at h

theorem resetEvent_inv (s : State) : s.resetEvent.Inv :=
  have h := resetFor_inv s.build
  ⟨h.inRange, h.err_le, h.busy_iff, h.busy_not_done, h.snapshot⟩

/-- Settles O11. -/
theorem resetStatesMeetTheInvariant : Obligations.ResetStatesMeetTheInvariant := resetFor_inv

/-- A clock keeps the invariant, and the build. -/
theorem inv_of_clocks {s t : State} (h : Clocks s t) (hi : s.Inv) : t.Inv ∧ t.build = s.build := by
  cases h with
  | idle => exact ⟨hi, rfl⟩
  | busy l n hl hr =>
    refine ⟨⟨hi.inRange, hi.err_le, ?_, hi.busy_not_done, ?_⟩, rfl⟩
    · simpa [hl] using hi.busy_iff
    · rintro _ ⟨⟩
      exact hi.snapshot l hl
  | command l hl hr i hd t hx ht =>
    have hc := completedWith_of_completes ht
    have hsrc : s.sources.m < 2 ^ s.build.w := by
      rw [sources_of_inv hi]
      exact hi.inRange.2.1
    exact ⟨inv_of_completedWith hc (inRange_of_completes ht hi.inRange hsrc) (err_le_of_completes ht), hc.build⟩
  | illegal =>
    exact ⟨inv_of_completedWith (raise_errorResult s .illegal).completed hi.inRange (code_toNat_le _), rfl⟩

/-- A write of the registers while idle keeps the invariant if they stay in range. -/
theorem inv_with_regs {s : State} {r : Regs} (hi : s.Inv) (hidle : s.status.busy = false) (hr : r.InRange s.build) :
    ({ s with regs := r } : State).Inv where
  inRange := hr
  err_le := hi.err_le
  busy_iff := hi.busy_iff
  busy_not_done := hi.busy_not_done
  snapshot l hl := by
    have hbusy := hi.busy_iff
    simp [hidle, show s.latch = some l from hl] at hbusy

theorem inv_accept {s : State} (hi : s.Inv) (c : Word) : (s.accept c).Inv := by
  obtain ⟨n, env, h, -, -⟩ := accept_spec s c
  rw [h]
  exact ⟨hi.inRange, hi.err_le, rfl, fun _ => rfl, by rintro _ ⟨⟩; rfl⟩

/-- A host write keeps the invariant, and the build. -/
theorem inv_writeWord {s : State} (hi : s.Inv) (i : WordIndex) (v : Word) :
    (s.writeWord i v).Inv ∧ (s.writeWord i v).build = s.build := by
  rcases writeWord_cases s i v with
    h | ⟨-, h⟩ | ⟨-, h⟩ | ⟨-, h⟩ | ⟨-, -, h⟩ | ⟨hidle, -, h⟩ | ⟨hidle, r, j, -, hj, h⟩ <;> rw [h]
  · exact ⟨hi, rfl⟩
  · exact ⟨⟨hi.inRange, hi.err_le, hi.busy_iff, hi.busy_not_done, hi.snapshot⟩, rfl⟩
  · refine ⟨⟨hi.inRange, hi.err_le, hi.busy_iff, fun hbusy => ?_, hi.snapshot⟩, rfl⟩
    rw [acknowledge_done, hi.busy_not_done hbusy, Bool.false_and]
  · exact ⟨⟨hi.inRange, hi.err_le, hi.busy_iff, hi.busy_not_done, hi.snapshot⟩, rfl⟩
  · exact ⟨inv_accept hi v, accept_build s v⟩
  · exact ⟨inv_with_regs hi hidle hi.inRange, rfl⟩
  · exact ⟨inv_with_regs hi hidle (set_inRange hi.inRange r _ (replaceWord_lt v (get_lt hi.inRange r) hj)), rfl⟩

theorem inv_hostAccess {s : State} (hi : s.Inv) (a : Access) :
    (s.hostAccess a).Inv ∧ (s.hostAccess a).build = s.build := by
  cases a with
  | read i => exact ⟨⟨hi.inRange, hi.err_le, hi.busy_iff, hi.busy_not_done, hi.snapshot⟩, rfl⟩
  | write i v => exact inv_writeWord hi i v

theorem inv_of_applies {s t : State} {e : Input} (h : Applies s e t) (hi : s.Inv) : t.Inv ∧ t.build = s.build := by
  cases h with
  | clock _ hc => exact inv_of_clocks hc hi
  | access a | accessIdle a => exact inv_hostAccess hi a
  | accessBusy a _ _ _ hc =>
    obtain ⟨hi', hb'⟩ := inv_hostAccess hi a
    obtain ⟨hit, hbt⟩ := inv_of_clocks hc hi'
    exact ⟨hit, hbt.trans hb'⟩
  | reset => exact ⟨resetEvent_inv s, resetEvent_build s⟩

/-- Settles O10. -/
theorem everyStepKeepsTheInvariant : Obligations.EveryStepKeepsTheInvariant := by
  intro s t hi hstep
  rcases step_cases hstep with ⟨-, hc⟩ | ⟨e, es, -, ha⟩
  · exact inv_of_clocks hc hi
  · exact inv_of_applies (s := s.withInputs es) ha (inv_withInputs hi es)

end Sys2Proof.Machine
end

section
/-! PROOFS. Completion (spec/60_exceptions.md R181 to R184) and noninterference (spec/10_state.md R35): a command is a function
of its snapshot followed by one of the shared completions, so it leaves the same effect whatever else the states hold; a
command without events completes; and host accesses meanwhile change nothing of what it commits. -/

namespace Sys2Proof.Machine

/-! ## The code of a result -/

/-- The ERR value a completion with this result leaves (R183 to R185); `finishField_err`, `finishPoint_err` and
`finishVerify_err` say so. -/
def resultCode {α : Type} : Except ErrCode α → BitVec 4
  | .ok _ => 0#4
  | .error e => e.code

theorem code_ne_zero (e : ErrCode) : e.code ≠ 0#4 := by
  cases e <;> decide

theorem code_inj {e e' : ErrCode} : e.code = e'.code ↔ e = e' := by
  cases e <;> cases e' <;> decide

theorem resultCode_eq_zero_iff {α : Type} (r : Except ErrCode α) : resultCode r = 0#4 ↔ ∃ v, r = .ok v := by
  cases r <;> simp [resultCode, code_ne_zero]

theorem resultCode_eq_code_iff {α : Type} (r : Except ErrCode α) (e : ErrCode) :
    resultCode r = e.code ↔ r = .error e := by
  cases r with
  | ok v => simp [resultCode, (code_ne_zero e).symm]
  | error e' => simp [resultCode, code_inj]

theorem finishField_err (s : State) (d : RegField) (r : Except ErrCode Nat) :
    (s.finishField d r).status.err = resultCode r := by
  cases r <;> rfl

theorem finishPoint_err (s : State) (d : Fin 8) (r : Except ErrCode Pt) :
    (s.finishPoint d r).status.err = resultCode r := by
  cases r <;> rfl

theorem finishVerify_err (s : State) (r : Except ErrCode Bool) : (s.finishVerify r).status.err = resultCode r := by
  cases r <;> rfl

theorem finishVerify_ok (s : State) (valid : Bool) :
    CompletedWith s (s.finishVerify (.ok valid)) 0#4 valid ∧ (s.finishVerify (.ok valid)).regs = s.regs :=
  ⟨commit_completedWith s _ _ rfl rfl rfl, rfl⟩

/-! ## A command is its result on the sources, and a shared completion -/

/-- A field command's result is a function of the sources (R110 to R112). -/
theorem exec_field {i : Instr} {d s1 s2 : RegField} (hi : i = .modmul d s1 s2 ∨ i = .modpow d s1 s2 ∨ i = .modinv d s1)
    (src : Regs) : ∃ r, ∀ s : State, s.sources = src → exec i s = .next (s.finishField d r) := by
  rcases hi with rfl | rfl | rfl
  · exact ⟨modmulResult src s1 s2, by rintro s rfl; rfl⟩
  · exact ⟨modpowResult src s1 s2, by rintro s rfl; rfl⟩
  · exact ⟨modinvResult src s1, by rintro s rfl; rfl⟩

/-- A point command's result is a function of the sources (R140, R141, R170); an operand that names no point register makes it
ILLEGAL (log 11). -/
theorem exec_point {i : Instr} {pd : Fin 8} {s1 s2 : RegField}
    (hi : i = .pdbl (pointField pd) s1 ∨ i = .padd (pointField pd) s1 s2 ∨ i = .pmul (pointField pd) s1 s2)
    (src : Regs) : ∃ r, ∀ s : State, s.sources = src → exec i s = .next (s.finishPoint pd r) := by
  rcases hi with rfl | rfl | rfl
  · cases h1 : pointIndex s1 with
    | none => exact ⟨.error .illegal, fun s _ => by simp [exec, execPdbl, h1, State.finishPoint]⟩
    | some ps => exact ⟨pdblResult src ps, by rintro s rfl; simp [exec, execPdbl, h1]⟩
  · cases h1 : pointIndex s1 with
    | none => exact ⟨.error .illegal, fun s _ => by simp [exec, execPadd, h1, State.finishPoint]⟩
    | some self =>
      cases h2 : pointIndex s2 with
      | none => exact ⟨.error .illegal, fun s _ => by simp [exec, execPadd, h2, State.finishPoint]⟩
      | some other => exact ⟨paddResult src self other, by rintro s rfl; simp [exec, execPadd, h1, h2]⟩
  · cases h1 : pointIndex s1 with
    | none => exact ⟨.error .illegal, fun s _ => by simp [exec, execPmul, h1, State.finishPoint]⟩
    | some ps => exact ⟨pmulResult src ps s2, by rintro s rfl; simp [exec, execPmul, h1]⟩

/-- PVERIFY's result is a function of the sources (R171), ILLEGAL as for the other point operands. -/
theorem exec_verify (s1 : RegField) (src : Regs) :
    ∃ r, ∀ s : State, s.sources = src → exec (.pverify s1) s = .next (s.finishVerify r) := by
  cases h1 : pointIndex s1 with
  | none => exact ⟨.error .illegal, fun s _ => by simp [exec, execPverify, h1, State.finishVerify]⟩
  | some ps => exact ⟨pverifyResult src ps, by rintro s rfl; simp [exec, execPverify, h1]⟩

/-- The field that names a point register is `pointField` of it (30_encoding.md R81). -/
theorem eq_pointField_of_pointIndex : ∀ {n : RegField} {k : Fin 8}, pointIndex n = some k → n = pointField k := by
  decide

theorem exists_pointField {n : RegField} (h : isPointField n = true) : ∃ k, n = pointField k := by
  cases hk : pointIndex n with
  | none =>
    rw [pointIndex_eq_none_iff] at hk
    simp [hk] at h
  | some k => exact ⟨k, eq_pointField_of_pointIndex hk⟩

/-- A term with an operand that names no point register raises ILLEGAL (log 11). -/
theorem exec_of_not_wellFormed {i : Instr} (hwf : i.wellFormed = false) (s : State) :
    exec i s = .next (s.raise .illegal) := by
  cases i with
  | modmul | modpow | modinv => simp [Instr.wellFormed] at hwf
  | pdbl d s1 =>
    simp only [Instr.wellFormed, Bool.and_eq_false_iff, ← pointIndex_eq_none_iff] at hwf
    rcases hwf with h | h <;> simp [exec, execPdbl, h]
  | padd d s1 s2 =>
    simp only [Instr.wellFormed, Bool.and_eq_false_iff, ← pointIndex_eq_none_iff] at hwf
    rcases hwf with (h | h) | h <;> simp [exec, execPadd, h]
  | pmul d s1 s2 =>
    simp only [Instr.wellFormed, Bool.and_eq_false_iff, ← pointIndex_eq_none_iff] at hwf
    rcases hwf with h | h <;> simp [exec, execPmul, h]
  | pverify s1 =>
    simp only [Instr.wellFormed, ← pointIndex_eq_none_iff] at hwf
    simp [exec, execPverify, hwf]

/-- The well-formed commands, by the registers they name (30_encoding.md R81, R84): `namesRegisters_of_wellFormed`. -/
inductive NamesRegisters : Instr → Prop where
  | modmul (d s1 s2 : RegField) : NamesRegisters (.modmul d s1 s2)
  | modpow (d s1 s2 : RegField) : NamesRegisters (.modpow d s1 s2)
  | modinv (d s1 : RegField) : NamesRegisters (.modinv d s1)
  | pdbl (pd ps : Fin 8) : NamesRegisters (.pdbl (pointField pd) (pointField ps))
  | padd (pd self other : Fin 8) : NamesRegisters (.padd (pointField pd) (pointField self) (pointField other))
  | pmul (pd ps : Fin 8) (k : RegField) : NamesRegisters (.pmul (pointField pd) (pointField ps) k)
  | pverify (ps : Fin 8) : NamesRegisters (.pverify (pointField ps))

theorem namesRegisters_of_wellFormed {i : Instr} (hwf : i.wellFormed = true) : NamesRegisters i := by
  cases i with
  | modmul d s1 s2 => exact .modmul d s1 s2
  | modpow d s1 s2 => exact .modpow d s1 s2
  | modinv d s1 => exact .modinv d s1
  | pdbl d s1 =>
    obtain ⟨hd, h1⟩ := Bool.and_eq_true_iff.mp hwf
    obtain ⟨pd, rfl⟩ := exists_pointField hd
    obtain ⟨ps, rfl⟩ := exists_pointField h1
    exact .pdbl pd ps
  | padd d s1 s2 =>
    obtain ⟨hd1, h2⟩ := Bool.and_eq_true_iff.mp hwf
    obtain ⟨hd, h1⟩ := Bool.and_eq_true_iff.mp hd1
    obtain ⟨pd, rfl⟩ := exists_pointField hd
    obtain ⟨self, rfl⟩ := exists_pointField h1
    obtain ⟨other, rfl⟩ := exists_pointField h2
    exact .padd pd self other
  | pmul d s1 s2 =>
    obtain ⟨hd, h1⟩ := Bool.and_eq_true_iff.mp hwf
    obtain ⟨pd, rfl⟩ := exists_pointField hd
    obtain ⟨ps, rfl⟩ := exists_pointField h1
    exact .pmul pd ps s2
  | pverify s1 =>
    obtain ⟨ps, rfl⟩ := exists_pointField hwf
    exact .pverify ps

/-- Settles O37. -/
theorem operandsThatNameNoPointRegisterAreIllegal : Obligations.OperandsThatNameNoPointRegisterAreIllegal :=
  fun _ s hwf => ⟨_, exec_of_not_wellFormed hwf s, raise_errorResult s .illegal⟩

/-! ## The same sources leave the same effect -/

/-- The completions from s to t and from s' to t' have the same effect: the same code, and what was equal of VALID and of the
registers stays equal. -/
structure SameEffect (s s' t t' : State) : Prop where
  err : t.status.err = t'.status.err
  valid : s.status.valid = s'.status.valid → t.status.valid = t'.status.valid
  regs : s.regs = s'.regs → t.regs = t'.regs

theorem raise_sameEffect (s s' : State) (e : ErrCode) : SameEffect s s' (s.raise e) (s'.raise e) :=
  ⟨rfl, id, id⟩

theorem finishField_sameEffect (s s' : State) (d : RegField) (r : Except ErrCode Nat) :
    SameEffect s s' (s.finishField d r) (s'.finishField d r) := by
  cases r with
  | ok v => exact ⟨rfl, id, congrArg (Regs.setF · (fieldIndex d) v)⟩
  | error e => exact raise_sameEffect s s' e

theorem finishPoint_sameEffect (s s' : State) (d : Fin 8) (r : Except ErrCode Pt) :
    SameEffect s s' (s.finishPoint d r) (s'.finishPoint d r) := by
  cases r with
  | ok p => exact ⟨rfl, id, congrArg (Regs.wrpt · d p)⟩
  | error e => exact raise_sameEffect s s' e

theorem finishVerify_sameEffect (s s' : State) (r : Except ErrCode Bool) :
    SameEffect s s' (s.finishVerify r) (s'.finishVerify r) := by
  cases r with
  | ok valid => exact ⟨rfl, fun _ => rfl, id⟩
  | error e => exact raise_sameEffect s s' e

/-- A command's effect depends on the sources only (10_state.md R35). -/
theorem exec_sameEffect {i : Instr} {s s' t t' : State} (hsrc : s.sources = s'.sources) (h : exec i s = .next t)
    (h' : exec i s' = .next t') : SameEffect s s' t t' := by
  have field : ∀ {d r}, exec i s = .next (s.finishField d r) → exec i s' = .next (s'.finishField d r) →
      SameEffect s s' t t' := by
    intro d r hs hs'
    cases h.symm.trans hs
    cases h'.symm.trans hs'
    exact finishField_sameEffect s s' d r
  have point : ∀ {d r}, exec i s = .next (s.finishPoint d r) → exec i s' = .next (s'.finishPoint d r) →
      SameEffect s s' t t' := by
    intro d r hs hs'
    cases h.symm.trans hs
    cases h'.symm.trans hs'
    exact finishPoint_sameEffect s s' d r
  cases hwf : i.wellFormed with
  | false =>
    cases h.symm.trans (exec_of_not_wellFormed hwf s)
    cases h'.symm.trans (exec_of_not_wellFormed hwf s')
    exact raise_sameEffect s s' .illegal
  | true =>
    cases namesRegisters_of_wellFormed hwf with
    | modmul | modpow | modinv => exact field rfl (by rw [hsrc]; rfl)
    | pdbl pd ps => exact point (exec_pdbl pd ps s) (by rw [hsrc, exec_pdbl])
    | padd pd self other => exact point (exec_padd pd self other s) (by rw [hsrc, exec_padd])
    | pmul pd ps k => exact point (exec_pmul pd ps k s) (by rw [hsrc, exec_pmul])
    | pverify ps =>
      rw [exec_pverify] at h h'
      cases h
      cases h'
      rw [hsrc]
      exact finishVerify_sameEffect s s' _

/-- Settles O18. -/
theorem commandsReadOnlyTheirSnapshot : Obligations.CommandsReadOnlyTheirSnapshot := by
  intro i s s' t t' hsrc h h'
  obtain ⟨herr, hvalid, hregs⟩ := exec_sameEffect hsrc h h'
  refine ⟨herr, hvalid, hregs, fun hok => ⟨fun s1 hi => ?verify, fun d s1 s2 hi => ?field, fun pd s1 s2 hi => ?point⟩⟩
  case verify =>
    obtain ⟨r, hr⟩ := exec_verify s1 s'.sources
    subst hi
    cases h.symm.trans (hr s hsrc)
    cases h'.symm.trans (hr s' rfl)
    rw [finishVerify_err, resultCode_eq_zero_iff] at hok
    obtain ⟨valid, rfl⟩ := hok
    rfl
  case field =>
    obtain ⟨r, hr⟩ := exec_field hi s'.sources
    cases h.symm.trans (hr s hsrc)
    cases h'.symm.trans (hr s' rfl)
    rw [finishField_err, resultCode_eq_zero_iff] at hok
    obtain ⟨v, rfl⟩ := hok
    exact (finishField_ok s d v).result.trans (finishField_ok s' d v).result.symm
  case point =>
    obtain ⟨r, hr⟩ := exec_point hi s'.sources
    cases h.symm.trans (hr s hsrc)
    cases h'.symm.trans (hr s' rfl)
    rw [finishPoint_err, resultCode_eq_zero_iff] at hok
    obtain ⟨p, rfl⟩ := hok
    have hs := finishPoint_ok s pd p
    have hs' := finishPoint_ok s' pd p
    exact ⟨hs.x.trans hs'.x.symm, hs.y.trans hs'.y.symm, hs.inf.trans hs'.inf.symm⟩

/-- Settles O15. -/
theorem completionCommitsOrChangesStatusOnly : Obligations.CompletionCommitsOrChangesStatusOnly := by
  intro s t l hl hr ht
  have hcommand : ∀ i, exec i s = .next t → (t.status.err = 0#4 ∧ CompletedWith s t 0#4 t.status.valid) ∨
      ∃ e, t.status.err = e.code ∧ ErrorResult s t e := by
    intro i hi
    obtain ⟨u, hu, hc⟩ := exec_completes i s
    obtain rfl : t = u := Host.Outcome.next.inj (hi.symm.trans hu)
    rcases err_zero_or_raise_of_completes hc with h0 | ⟨e, rfl⟩
    · exact .inl ⟨h0, h0 ▸ completedWith_of_completes hc⟩
    · exact .inr ⟨e, raise_err s e, raise_errorResult s e⟩
  cases hd : decode l.word with
  | ok i => exact hcommand i ((clock_of_command hl hr hd).symm.trans ht)
  | error e =>
    cases ht.symm.trans (clock_of_decode_error hl hr hd)
    exact .inr ⟨.illegal, raise_err s _, raise_errorResult s _⟩

/-! ## Runs -/

theorem run_succ_of_step {s t : State} (h : step s = .next t) (n : Nat) : run (n + 1) s = run n t := by
  simp [run, h, nextOr]

theorem run_add (m n : Nat) (s : State) : run (m + n) s = run n (run m s) := by
  induction m generalizing s with
  | zero => simp [run]
  | succ m ih => rw [Nat.succ_add, run, ih, run]

/-- With no event coming, each step of a waiting command counts one clock and changes nothing else (R220). -/
theorem run_waiting {s : State} {l : Latch} (hl : s.latch = some l) (hin : s.env.inputs = []) :
    ∀ k ≤ l.remaining, run k s = { s with latch := some { l with remaining := l.remaining - k } } := by
  intro k hk
  induction k generalizing s l with
  | zero =>
    rw [run, Nat.sub_zero, ← hl]
  | succ k ih =>
    obtain ⟨n, hn⟩ : ∃ n, l.remaining = n + 1 := ⟨l.remaining - 1, by omega⟩
    have hstep := (step_of_no_inputs hin).trans (clock_of_waiting hl hn)
    have hrest := ih (s := { s with latch := some { l with remaining := n } }) rfl hin (show k ≤ n by omega)
    rw [run_succ_of_step hstep, hrest, hn, Nat.add_sub_add_right]

/-- Settles O16. -/
theorem everyAcceptedCommandCompletes : Obligations.EveryAcceptedCommandCompletes := by
  intro s l hbusy hl hin
  refine ⟨fun k hk => ?waiting, ?completion⟩
  case waiting =>
    rw [run_waiting hl hin k hk]
    exact ⟨hbusy, rfl⟩
  case completion =>
    have hready := run_waiting hl hin l.remaining le_rfl
    rw [Nat.sub_self] at hready
    obtain ⟨t, ht, hc⟩ := clock_completes (s := run l.remaining s) (l := { l with remaining := 0 }) (by rw [hready]) rfl
    have hstep : step (run l.remaining s) = .next t := by
      rw [← ht]
      exact step_of_no_inputs (by rw [hready]; exact hin)
    rw [run_add, run_succ_of_step hstep]
    exact ⟨hc.notBusy, hc.done, hc.latch⟩

/-! ## Host accesses while a command runs -/

/-- The command of the latch l, accepted in s, is still in the engine of t with n clocks left to wait; registers and VALID are
those of s. -/
structure Running (s t : State) (l : Latch) (n : Nat) : Prop where
  busy : t.status.busy = true
  regs : t.regs = s.regs
  valid : t.status.valid = s.status.valid
  latch : t.latch = some { l with remaining := n }

theorem Running.hostAccess {s t : State} {l : Latch} {n : Nat} (h : Running s t l n) (a : Access) :
    Running s (t.hostAccess a) l n := by
  obtain ⟨hregs, hlatch, -, hbusy, hvalid, -⟩ := hostAccess_busy t a h.busy
  exact ⟨hbusy, hregs.trans h.regs, hvalid.trans h.valid, hlatch.trans h.latch⟩

theorem Running.withInputs {s t : State} {l : Latch} {n : Nat} (h : Running s t l n) (es : List Input) :
    Running s (t.withInputs es) l n := ⟨h.busy, h.regs, h.valid, h.latch⟩

/-- One clock of a running command with clocks left. -/
theorem Running.clock {s t : State} {l : Latch} {n : Nat} (h : Running s t l (n + 1)) :
    ∃ u, t.clock = .next u ∧ Running s u l n ∧ u.env = t.env :=
  ⟨_, clock_of_waiting h.latch rfl, ⟨h.busy, h.regs, h.valid, rfl⟩, rfl⟩

theorem hostAccess_inputs_of_running {s t : State} {l : Latch} {n : Nat} (h : Running s t l n) (a : Access) :
    (t.hostAccess a).env.inputs = t.env.inputs := by
  obtain ⟨-, -, -, -, -, -, hin⟩ := hostAccess_busy t a h.busy
  exact hin

/-- Every event but reset leaves the command running, and takes from its clocks the one it lets the engine have. -/
theorem Running.step {s t : State} {l : Latch} {n : Nat} {e : Input} {es : List Input}
    (h : Running s t l (engineClocks [e] + n)) (he : e ≠ .reset) (hin : t.env.inputs = e :: es) :
    ∃ u, Machine.step t = .next u ∧ Running s u l n ∧ u.env.inputs = es := by
  have h' := h.withInputs es
  cases e with
  | reset => exact absurd rfl he
  | clock =>
    rw [show engineClocks [.clock] + n = n + 1 from Nat.add_comm 1 n] at h'
    obtain ⟨u, hu, hrun, henv⟩ := h'.clock
    exact ⟨u, (step_of_clock hin).trans hu, hrun, by rw [henv]; rfl⟩
  | access a =>
    rw [show engineClocks [.access a] + n = n from Nat.zero_add n] at h'
    exact ⟨_, step_of_access hin, h'.hostAccess a, hostAccess_inputs_of_running h' a⟩
  | accessInClock a =>
    rw [show engineClocks [.accessInClock a] + n = n + 1 from Nat.add_comm 1 n] at h'
    obtain ⟨u, hu, hrun, henv⟩ := (h'.hostAccess a).clock
    have hstep := (step_of_accessInClock hin).trans (accessInClock_of_latched a h'.latch)
    exact ⟨u, hstep.trans hu, hrun, by rw [henv]; exact hostAccess_inputs_of_running h' a⟩

/-- A list of events without reset leaves the command running if it gives the engine no more clocks than are left. -/
theorem Running.run {s t : State} {l : Latch} {n : Nat} {before rest : List Input}
    (h : Running s t l (engineClocks before + n)) (hreset : .reset ∉ before) (hin : t.env.inputs = before ++ rest) :
    Running s (Machine.run before.length t) l n ∧ (Machine.run before.length t).env.inputs = rest := by
  induction before generalizing t with
  | nil =>
    rw [show engineClocks [] + n = n from Nat.zero_add n] at h
    exact ⟨h, hin⟩
  | cons e es ih =>
    have hclocks : engineClocks (e :: es) + n = engineClocks [e] + (engineClocks es + n) := by
      simp only [engineClocks, List.countP_cons, List.countP_nil]
      omega
    rw [hclocks] at h
    obtain ⟨u, hu, hrun, hrest⟩ := h.step (List.ne_of_not_mem_cons hreset).symm hin
    rw [List.length_cons, run_succ_of_step hu]
    exact ih hrun (List.not_mem_of_not_mem_cons hreset) hrest

/-- The event that lets the engine take its last clock completes the latched word, on the registers of the acceptance. -/
theorem Running.last_step {s t : State} {l : Latch} {last : Input} (h : Running s t l 0)
    (hlast : last.isEngineClock = true) (hin : t.env.inputs = [last]) :
    ∃ v, Running s v l 0 ∧ Machine.step t = v.clock := by
  cases last with
  | clock => exact ⟨_, h.withInputs [], step_of_clock hin⟩
  | accessInClock a =>
    exact ⟨_, (h.withInputs []).hostAccess a,
      (step_of_accessInClock hin).trans (accessInClock_of_latched a (h.withInputs []).latch)⟩
  | access | reset => simp [Input.isEngineClock] at hlast

theorem sources_of_latch {s : State} {l : Latch} (h : s.latch = some l) : s.sources = l.snap := by
  simp [State.sources, h]

/-- What the completion of a word leaves depends on the sources only, for an ILLEGAL word too. -/
theorem completeCommand_sameEffect {c : Word} {s s' t t' : State} (hsrc : s.sources = s'.sources)
    (h : s.completeCommand c = .next t) (h' : s'.completeCommand c = .next t') : SameEffect s s' t t' := by
  unfold State.completeCommand at h h'
  cases hd : decode c with
  | ok i =>
    rw [hd] at h h'
    exact exec_sameEffect hsrc h h'
  | error e =>
    rw [hd] at h h'
    cases h
    cases h'
    exact raise_sameEffect s s' .illegal

/-- Settles O17. -/
theorem hostAccessesDoNotDisturbARunningCommand : Obligations.HostAccessesDoNotDisturbARunningCommand := by
  intro s u l before last hinv hl hu hreset hclocks hlast
  have hbusy : s.status.busy = true := by rw [hinv.busy_iff, hl]; rfl
  have hstart : Running s (s.withInputs (before ++ [last])) l (engineClocks before + 0) :=
    ⟨hbusy, rfl, rfl, by rw [withInputs_latch, hl, Nat.add_zero, hclocks]⟩
  obtain ⟨hrun, hin⟩ := hstart.run hreset rfl
  obtain ⟨v, hv, hstep⟩ := hrun.last_step hlast hin
  obtain ⟨t, ht, hc⟩ := clock_completes hv.latch rfl
  have hsrc : v.sources = s.sources := by rw [sources_of_latch hv.latch, sources_of_latch hl]
  have hcomplete : v.completeCommand l.word = .next t := by rw [← clock_of_ready hv.latch rfl, ht]
  have heffect := completeCommand_sameEffect hsrc hcomplete hu
  rw [run_add, run_succ_of_step (hstep.trans ht)]
  exact ⟨heffect.regs hv.regs, heffect.valid hv.valid, heffect.err, hc.notBusy, hc.done⟩

end Sys2Proof.Machine
end

section
/-! PROOFS. MODMUL, MODPOW and MODINV (spec/40_modular.md R101 to R103, R110 to R112): the exponentiation and the Fermat
inverse in the ring of integers mod m, and the completion of each command with its result. -/

namespace Sys2Proof.Machine

/-! ## Exponentiation and the Fermat inverse -/

theorem powmod_zmod (b e : Nat) {m : Nat} (hm : 0 < m) : ((powmod b e m : Nat) : ZMod m) = (b : ZMod m) ^ e := by
  rw [powmod_eq b e m hm]
  split
  next he => simp [he]
  next => simp

theorem powmod_lt (b e : Nat) {m : Nat} (hm : 1 < m) : powmod b e m < m :=
  powmod_lt_of_le (by omega) le_rfl hm

/-- R103 in closed form. -/
theorem invmod_eq (v : Nat) {m : Nat} (hm : 2 ≤ m) : invmod v m = if m = 2 then 1 else v ^ (m - 2) % m := by
  have hexp : m - 2 = 0 ↔ m = 2 := by omega
  rw [invmod, powmod_eq _ _ _ (by omega)]
  simp only [hexp]

theorem invmod_lt (v : Nat) {m : Nat} (hm : 2 ≤ m) : invmod v m < m := powmod_lt v (m - 2) hm

theorem natCast_zmod_ne_zero {v m : Nat} (hv : v % m ≠ 0) : (v : ZMod m) ≠ 0 := by
  rwa [Ne, ZMod.natCast_eq_zero_iff, Nat.dvd_iff_mod_eq_zero]

/-- Over a prime modulus the Fermat value is the inverse (R103). -/
theorem invmod_zmod {v m : Nat} [Fact m.Prime] (hv : v % m ≠ 0) : ((invmod v m : Nat) : ZMod m) = (v : ZMod m)⁻¹ := by
  have hprime : m.Prime := Fact.out
  have hexp : m - 2 + 1 = m - 1 := by have := hprime.two_le; omega
  apply eq_inv_of_mul_eq_one_left
  rw [invmod, powmod_zmod _ _ hprime.pos, ← pow_succ, hexp]
  exact ZMod.pow_card_sub_one_eq_one (natCast_zmod_ne_zero hv)

theorem invmod_mul_mod {v m : Nat} (hm : m.Prime) (hv : v % m ≠ 0) : invmod v m * v % m = 1 := by
  have : Fact m.Prime := ⟨hm⟩
  have hone : ((invmod v m * v : Nat) : ZMod m) = (1 : Nat) := by
    rw [Nat.cast_mul, invmod_zmod hv, inv_mul_cancel₀ (natCast_zmod_ne_zero hv), Nat.cast_one]
  rw [ZMod.natCast_eq_natCast_iff'] at hone
  rw [hone, Nat.mod_eq_of_lt hm.one_lt]

/-- At most one residue has the product 1 with v. -/
theorem residue_inverse_unique {u u' v m : Nat} (hu : u < m) (hu' : u' < m) (h : u * v % m = 1) (h' : u' * v % m = 1) :
    u' = u := by
  have hchain : u' * (u * v) ≡ u * (u' * v) [MOD m] := by rw [mul_left_comm]
  have hone : 1 % m = 1 := Nat.mod_eq_of_lt (h ▸ Nat.mod_lt _ (by omega))
  have h1 : u * v ≡ 1 [MOD m] := h.trans hone.symm
  have h1' : u' * v ≡ 1 [MOD m] := h'.trans hone.symm
  have heq : u' ≡ u [MOD m] := by
    simpa only [mul_one] using (h1.mul_left u').symm.trans (hchain.trans (h1'.mul_left u))
  exact heq.eq_of_lt_of_lt hu' hu

/-! ## The commands -/

theorem exec_modmul (d s1 s2 : RegField) (s : State) :
    exec (.modmul d s1 s2) s = .next (s.finishField d (modmulResult s.sources s1 s2)) := rfl

theorem exec_modpow (d s1 s2 : RegField) (s : State) :
    exec (.modpow d s1 s2) s = .next (s.finishField d (modpowResult s.sources s1 s2)) := rfl

theorem exec_modinv (d s1 : RegField) (s : State) :
    exec (.modinv d s1) s = .next (s.finishField d (modinvResult s.sources s1)) := rfl

/-- MODMUL, MODPOW and MODINV with M in range, and for MODINV an operand that is no multiple of M (R110 to R112). -/
theorem modmulResult_of_ne_zero {r : Regs} (s1 s2 : RegField) (hm : r.m ≠ 0) :
    modmulResult r s1 s2 = .ok (r.getF (fieldIndex s1) * r.getF (fieldIndex s2) % r.m) := if_neg hm

theorem modpowResult_of_ne_zero {r : Regs} (s1 s2 : RegField) (hm : r.m ≠ 0) :
    modpowResult r s1 s2 = .ok (powmod (r.getF (fieldIndex s1)) (r.getF (fieldIndex s2)) r.m) := if_neg hm

theorem modinvResult_of_ne_zero {r : Regs} {s1 : RegField} (hm : 2 ≤ r.m) (hv : r.getF (fieldIndex s1) % r.m ≠ 0) :
    modinvResult r s1 = .ok (invmod (r.getF (fieldIndex s1)) r.m) := by
  rw [modinvResult, if_neg (by omega), if_neg hv]

/-- A field command whose result is v completes with it. -/
theorem fieldResult_of_ok {s : State} {d : RegField} {r : Except ErrCode Nat} {v : Nat} (h : r = .ok v) :
    NextSatisfies (.next (s.finishField d r)) (fun t => FieldResult s t (fieldIndex d) v) :=
  ⟨_, rfl, h ▸ finishField_ok s d v⟩

/-- Settles O19. -/
theorem modmulWritesTheProductModM : Obligations.ModmulWritesTheProductModM := by
  intro d s1 s2 s hm
  rw [exec_modmul]
  exact fieldResult_of_ok (modmulResult_of_ne_zero s1 s2 hm)

/-- Settles O20. -/
theorem modpowWritesThePowerModM : Obligations.ModpowWritesThePowerModM := by
  intro d s1 s2 s hm
  rw [exec_modpow, ← powmod_eq _ _ _ (Nat.pos_of_ne_zero hm)]
  exact fieldResult_of_ok (modpowResult_of_ne_zero s1 s2 hm)

/-- Settles O21. -/
theorem modinvWritesTheFermatPower : Obligations.ModinvWritesTheFermatPower := by
  intro d s1 s hm hv
  rw [exec_modinv, ← invmod_eq _ hm]
  exact fieldResult_of_ok (modinvResult_of_ne_zero hm hv)

/-- Settles O22. -/
theorem modinvInvertsModuloAPrime : Obligations.ModinvInvertsModuloAPrime := by
  intro d s1 s hprime hv
  have hlt := invmod_lt (s.sources.getF (fieldIndex s1)) hprime.two_le
  have hone := invmod_mul_mod hprime hv
  refine ⟨_, hlt, hone, fun u' hu' h' => residue_inverse_unique hlt hu' hone h', ?_⟩
  rw [exec_modinv]
  exact fieldResult_of_ok (modinvResult_of_ne_zero hprime.two_le hv)

end Sys2Proof.Machine
end

section
/-! PROOFS. Errors (spec/60_exceptions.md R185 to R187): a command raises MODULUS exactly below its range, NONINV exactly where
its inverse or a doubling fails, and never both. -/

namespace Sys2Proof.Machine

theorem nextSatisfies_next (t : State) (p : State → Prop) : NextSatisfies (.next t) p ↔ p t :=
  ⟨fun ⟨_, h, hp⟩ => Host.Outcome.next.inj h ▸ hp, fun hp => ⟨t, rfl, hp⟩⟩

/-! ## A completion is an error completion exactly if its result is that error -/

theorem finishField_errorResult_iff (s : State) (d : RegField) (r : Except ErrCode Nat) (e : ErrCode) :
    NextSatisfies (.next (s.finishField d r)) (fun t => ErrorResult s t e) ↔ r = .error e := by
  rw [nextSatisfies_next, ← resultCode_eq_code_iff, ← finishField_err s d]
  exact ⟨fun h => h.completed.err,
    fun h => (resultCode_eq_code_iff r e).mp (finishField_err s d r ▸ h) ▸ finishField_error s d e⟩

theorem finishPoint_errorResult_iff (s : State) (d : Fin 8) (r : Except ErrCode Pt) (e : ErrCode) :
    NextSatisfies (.next (s.finishPoint d r)) (fun t => ErrorResult s t e) ↔ r = .error e := by
  rw [nextSatisfies_next, ← resultCode_eq_code_iff, ← finishPoint_err s d]
  exact ⟨fun h => h.completed.err,
    fun h => (resultCode_eq_code_iff r e).mp (finishPoint_err s d r ▸ h) ▸ finishPoint_error s d e⟩

/-! ## MODULUS -/

section
variable {r : Regs}

theorem modmulResult_of_zero (s1 s2 : RegField) (hm : r.m < 1) : modmulResult r s1 s2 = .error .modulus :=
  if_pos (Nat.lt_one_iff.mp hm)

theorem modpowResult_of_zero (s1 s2 : RegField) (hm : r.m < 1) : modpowResult r s1 s2 = .error .modulus :=
  if_pos (Nat.lt_one_iff.mp hm)

theorem modinvResult_of_lt_two (s1 : RegField) (hm : r.m < 2) : modinvResult r s1 = .error .modulus := if_pos hm

theorem pdblResult_of_lt_four (n : Fin 8) (hm : r.m < 4) : pdblResult r n = .error .modulus :=
  if_pos (Nat.le_of_lt_succ hm)

theorem paddResult_of_lt_four (n k : Fin 8) (hm : r.m < 4) : paddResult r n k = .error .modulus :=
  if_pos (Nat.le_of_lt_succ hm)

theorem pmulResult_of_lt_four (n : Fin 8) (k : RegField) (hm : r.m < 4) : pmulResult r n k = .error .modulus :=
  if_pos (Nat.le_of_lt_succ hm)

theorem pverifyResult_of_lt_four (n : Fin 8) (hm : r.m < 4) : pverifyResult r n = .error .modulus :=
  if_pos (Nat.le_of_lt_succ hm)

end

/-- Below its range a command raises MODULUS, before it looks at anything else (R186, R187). -/
theorem exec_of_modulus_below {i : Instr} {s : State} (hwf : i.wellFormed = true) (hm : s.sources.m < minModulus i) :
    exec i s = .next (s.raise .modulus) := by
  cases namesRegisters_of_wellFormed hwf with
  | modmul d s1 s2 => rw [exec_modmul, modmulResult_of_zero s1 s2 hm]; rfl
  | modpow d s1 s2 => rw [exec_modpow, modpowResult_of_zero s1 s2 hm]; rfl
  | modinv d s1 => rw [exec_modinv, modinvResult_of_lt_two s1 hm]; rfl
  | pdbl pd ps => rw [exec_pdbl, pdblResult_of_lt_four ps hm]; rfl
  | padd pd self other => rw [exec_padd, paddResult_of_lt_four self other hm]; rfl
  | pmul pd ps k => rw [exec_pmul, pmulResult_of_lt_four ps k hm]; rfl
  | pverify ps => rw [exec_pverify, pverifyResult_of_lt_four ps hm]; rfl

/-! ## The results with M in range -/

section
variable {r : Regs} (hm : 3 < r.m)
include hm

theorem pdblResult_of_lt (n : Fin 8) : pdblResult r n = dbl (r.rdpt n) (r.a % r.m) r.m :=
  if_neg (by omega)

theorem paddResult_of_lt (n k : Fin 8) : paddResult r n k = add (r.rdpt n) (r.rdpt k) (r.a % r.m) r.m :=
  if_neg (by omega)

theorem pmulResult_of_lt (n : Fin 8) (k : RegField) :
    pmulResult r n k = smul (r.getF (fieldIndex k)) (r.rdpt n) (r.a % r.m) r.m :=
  if_neg (by omega)

theorem pverifyResult_of_lt (n : Fin 8) :
    pverifyResult r n = .ok (verify (r.rdpt n) (r.a % r.m) (r.b % r.m) r.m) :=
  if_neg (by omega)

end

/-- MODINV in range raises NONINV exactly for a multiple of M, and nothing else (R112). -/
theorem modinvResult_eq_error_iff {r : Regs} {s1 : RegField} (hm : 2 ≤ r.m) (e : ErrCode) :
    modinvResult r s1 = .error e ↔ e = .noninv ∧ r.getF (fieldIndex s1) % r.m = 0 := by
  rw [modinvResult, if_neg (by omega)]
  split
  next h => simp [h, eq_comm]
  next h => simp [h]

/-- The point commands in range raise nothing but NONINV, and it only over an even M (R132, R186). -/
theorem pdblResult_error {r : Regs} {n : Fin 8} {e : ErrCode} (hm : 3 < r.m) (h : pdblResult r n = .error e) :
    e = .noninv ∧ r.m % 2 = 0 :=
  dbl_error (rdpt_reduced r n (by omega)) (pdblResult_of_lt hm n ▸ h)

theorem paddResult_error {r : Regs} {n k : Fin 8} {e : ErrCode} (hm : 3 < r.m) (h : paddResult r n k = .error e) :
    e = .noninv ∧ r.m % 2 = 0 :=
  add_error (rdpt_reduced r n (by omega)) (paddResult_of_lt hm n k ▸ h)

theorem pmulResult_error {r : Regs} {n : Fin 8} {k : RegField} {e : ErrCode} (hm : 3 < r.m)
    (h : pmulResult r n k = .error e) : e = .noninv ∧ r.m % 2 = 0 :=
  smul_error (by omega) (rdpt_reduced r n (by omega)) (pmulResult_of_lt hm n k ▸ h)

/-- A result that can fail with NONINV only completes with the code 0 or 3. -/
theorem resultCode_zero_or_three {α : Type} {r : Except ErrCode α} (h : ∀ e, r = .error e → e = .noninv) :
    resultCode r = 0#4 ∨ resultCode r = 3#4 := by
  cases r with
  | ok v => exact .inl rfl
  | error e => rw [h e rfl]; exact .inr rfl

/-- With M in range a well-formed command completes with the code 0 or 3 (R186). -/
theorem exec_err_of_modulus_in_range {i : Instr} {s : State} (hwf : i.wellFormed = true)
    (hm : minModulus i ≤ s.sources.m) : NextSatisfies (exec i s) (fun t => t.status.err = 0#4 ∨ t.status.err = 3#4) := by
  cases namesRegisters_of_wellFormed hwf with
  | modmul d s1 s2 =>
    rw [exec_modmul, nextSatisfies_next, finishField_err, modmulResult_of_ne_zero s1 s2 (Nat.one_le_iff_ne_zero.mp hm)]
    exact .inl rfl
  | modpow d s1 s2 =>
    rw [exec_modpow, nextSatisfies_next, finishField_err, modpowResult_of_ne_zero s1 s2 (Nat.one_le_iff_ne_zero.mp hm)]
    exact .inl rfl
  | modinv d s1 =>
    rw [exec_modinv, nextSatisfies_next, finishField_err]
    exact resultCode_zero_or_three fun e h => ((modinvResult_eq_error_iff hm e).mp h).1
  | pdbl pd ps =>
    rw [exec_pdbl, nextSatisfies_next, finishPoint_err]
    exact resultCode_zero_or_three fun e h => (pdblResult_error hm h).1
  | padd pd self other =>
    rw [exec_padd, nextSatisfies_next, finishPoint_err]
    exact resultCode_zero_or_three fun e h => (paddResult_error hm h).1
  | pmul pd ps k =>
    rw [exec_pmul, nextSatisfies_next, finishPoint_err]
    exact resultCode_zero_or_three fun e h => (pmulResult_error hm h).1
  | pverify ps =>
    rw [exec_pverify, nextSatisfies_next, finishVerify_err, pverifyResult_of_lt hm]
    exact .inl rfl

/-- Settles O33. -/
theorem modulusIsRaisedExactlyBelowTheRange : Obligations.ModulusIsRaisedExactlyBelowTheRange :=
  fun _ s hwf => ⟨fun hm => ⟨_, exec_of_modulus_below hwf hm, raise_errorResult s .modulus⟩,
    exec_err_of_modulus_in_range hwf⟩

/-! ## NONINV -/

/-! `dbl` and `add` by cases (R132, R133). -/

@[simp] theorem dbl_inf (a m : Nat) : dbl .inf a m = .ok .inf := rfl

theorem dbl_aff (x y a m : Nat) : dbl (.aff x y) a m =
    if y = 0 then .ok .inf
    else if 2 * y % m = 0 then .error .noninv
    else .ok (chordPoint (mulmod ((3 * x * x + a) % m) (invmod (2 * y % m) m) m) x y x m) := rfl

@[simp] theorem add_inf_right (p : Pt) (a m : Nat) : add p .inf a m = .ok p := by
  cases p <;> rfl

@[simp] theorem add_inf_left (q : Pt) (a m : Nat) : add .inf q a m = .ok q := by
  cases q <;> rfl

theorem add_aff_same (x y a m : Nat) : add (.aff x y) (.aff x y) a m = dbl (.aff x y) a m := by
  simp [add]

theorem add_aff_of_y_ne (x : Nat) {y1 y2 : Nat} (a m : Nat) (hy : y1 ≠ y2) :
    add (.aff x y1) (.aff x y2) a m = .ok .inf := by
  simp [add, hy]

theorem add_aff_of_x_ne {x1 x2 : Nat} (y1 y2 a m : Nat) (hx : x1 ≠ x2) : add (.aff x1 y1) (.aff x2 y2) a m =
    .ok (chordPoint (mulmod (residue ((y2 : Int) - y1) m) (invmod (residue ((x2 : Int) - x1) m) m) m) x1 y1 x2 m) := by
  simp [add, hx]

/-- Adding a point to itself is doubling it, at infinity too. -/
theorem add_self_eq_dbl (p : Pt) (a m : Nat) : add p p a m = dbl p a m := by
  cases p with
  | inf => rfl
  | aff x y => exact add_aff_same x y a m

/-- A doubling fails exactly for an affine point with y not 0 and 2y ≡ 0 (41_curve_point.md R132). -/
theorem dbl_aff_eq_error_iff (x y a m : Nat) (e : ErrCode) :
    dbl (.aff x y) a m = .error e ↔ e = .noninv ∧ y ≠ 0 ∧ 2 * y % m = 0 := by
  rw [dbl_aff]
  by_cases hy : y = 0
  · simp [hy]
  · by_cases hd : 2 * y % m = 0 <;> simp [hy, hd, eq_comm]

/-- An addition fails exactly where it dispatches to a doubling that fails (R133). -/
theorem add_eq_error_iff (p q : Pt) (a m : Nat) (e : ErrCode) :
    add p q a m = .error e ↔ p = q ∧ dbl p a m = .error e := by
  by_cases hpq : p = q
  · subst hpq
    simp [add_self_eq_dbl]
  · simp only [hpq, false_and, iff_false]
    cases p with
    | inf => simp
    | aff x1 y1 =>
      cases q with
      | inf => simp
      | aff x2 y2 =>
        by_cases hx : x1 = x2
        · subst hx
          simp [add_aff_of_y_ne x1 a m (y1 := y1) (y2 := y2) (by simpa using hpq)]
        · simp [add_aff_of_x_ne y1 y2 a m hx]

/-- The residue y, not 0, with 2y ≡ 0: M/2, for an even M (R186). -/
theorem two_mul_mod_eq_zero_iff {y m : Nat} (hy : y < m) (hm : 1 < m) :
    y ≠ 0 ∧ 2 * y % m = 0 ↔ m % 2 = 0 ∧ y = m / 2 := by
  constructor
  · rintro ⟨hpos, hzero⟩
    rcases Nat.lt_or_ge (2 * y) m with hlt | hge
    · rw [Nat.mod_eq_of_lt hlt] at hzero
      omega
    · rw [Nat.mod_eq_sub_mod hge, Nat.mod_eq_of_lt (by omega)] at hzero
      omega
  · rintro ⟨heven, rfl⟩
    rw [Nat.mul_div_cancel' (Nat.dvd_of_mod_eq_zero heven)]
    exact ⟨by omega, Nat.mod_self m⟩

/-- Where the doubling of a point register fails (R186). -/
theorem dbl_rdpt_eq_noninv_iff {r : Regs} (n : Fin 8) (a : Nat) (hm : 3 < r.m) :
    dbl (r.rdpt n) a r.m = .error .noninv ↔
      r.getInf n = false ∧ r.m % 2 = 0 ∧ r.getF (yIndex n) % r.m = r.m / 2 := by
  cases hinf : r.getInf n with
  | true => simp [rdpt_of_inf r n hinf]
  | false =>
    rw [rdpt_of_affine r n hinf, dbl_aff_eq_error_iff,
      two_mul_mod_eq_zero_iff (Nat.mod_lt _ (by omega)) (by omega)]
    simp

theorem err_ne_three {α : Type} {r : Except ErrCode α} (h : r ≠ .error .noninv) : resultCode r ≠ 3#4 :=
  fun hcode => h ((resultCode_eq_code_iff r .noninv).mp hcode)

theorem modmulResult_ne_noninv (r : Regs) (s1 s2 : RegField) : modmulResult r s1 s2 ≠ .error .noninv := by
  unfold modmulResult
  split_ifs <;> simp

theorem modpowResult_ne_noninv (r : Regs) (s1 s2 : RegField) : modpowResult r s1 s2 ≠ .error .noninv := by
  unfold modpowResult
  split_ifs <;> simp

theorem pverifyResult_ne_noninv (r : Regs) (n : Fin 8) : pverifyResult r n ≠ .error .noninv := by
  unfold pverifyResult
  split_ifs <;> simp

/-- PVERIFY never leaves NONINV, well formed or not (R171). -/
theorem exec_pverify_err {s1 : RegField} {s t : State} (h : exec (.pverify s1) s = .next t) : t.status.err ≠ 3#4 := by
  cases hwf : (Instr.pverify s1).wellFormed with
  | false =>
    cases h.symm.trans (exec_of_not_wellFormed hwf s)
    rw [raise_err]
    decide
  | true =>
    obtain ⟨ps, rfl⟩ := exists_pointField hwf
    cases h.symm.trans (exec_pverify ps s)
    rw [finishVerify_err]
    exact err_ne_three (pverifyResult_ne_noninv _ _)

/-- Settles O34. -/
theorem noninvIsRaisedExactlyWhereR186Says : Obligations.NoninvIsRaisedExactlyWhereR186Says := by
  intro s
  refine ⟨fun d s1 hm => ?modinv, fun pd ps hm => ?pdbl, fun pd p1 p2 hm => ?padd, fun pd ps k hm => ?pmul,
    fun t d s1 s2 h => ?modmul, fun t d s1 s2 h => ?modpow, fun t s1 h => exec_pverify_err h⟩
  case modinv =>
    rw [exec_modinv, finishField_errorResult_iff, modinvResult_eq_error_iff hm]
    simp
  case pdbl => rw [exec_pdbl, finishPoint_errorResult_iff, pdblResult_of_lt hm, dbl_rdpt_eq_noninv_iff ps _ hm]
  case padd =>
    rw [exec_padd, finishPoint_errorResult_iff, paddResult_of_lt hm, add_eq_error_iff, dbl_rdpt_eq_noninv_iff p1 _ hm,
      and_left_comm]
  case pmul =>
    rw [exec_pmul, finishPoint_errorResult_iff]
    exact ⟨by rw [pmulResult_of_lt hm], fun h => (pmulResult_error hm h).2⟩
  case modmul =>
    cases h
    rw [finishField_err]
    exact err_ne_three (modmulResult_ne_noninv _ _ _)
  case modpow =>
    cases h
    rw [finishField_err]
    exact err_ne_three (modpowResult_ne_noninv _ _ _)

/-- A point command that raises NONINV had M in range, so M is even. -/
theorem even_of_noninv {α : Type} {m : Nat} {r : Except ErrCode α} (hsmall : m < 4 → r = .error .modulus)
    (hrange : ∀ e, 3 < m → r = .error e → e = .noninv ∧ m % 2 = 0) (h : r = .error .noninv) : m % 2 = 0 := by
  rcases Nat.lt_or_ge 3 m with hm | hm
  · exact (hrange _ hm h).2
  · simp [hsmall (by omega)] at h

/-- Settles O35. -/
theorem oddModulusNeverRaisesNoninv : Obligations.OddModulusNeverRaisesNoninv := by
  intro i s t hodd hpoint h
  have hne : ∀ {α : Type} {r : Except ErrCode α}, (r = .error .noninv → s.sources.m % 2 = 0) → resultCode r ≠ 3#4 :=
    fun heven => err_ne_three fun hr => by have := heven hr; omega
  cases hwf : i.wellFormed with
  | false =>
    cases h.symm.trans (exec_of_not_wellFormed hwf s)
    rw [raise_err]
    decide
  | true =>
    cases namesRegisters_of_wellFormed hwf with
    | modmul | modpow | modinv => simp [minModulus] at hpoint
    | pdbl pd ps =>
      cases h.symm.trans (exec_pdbl pd ps s)
      rw [finishPoint_err]
      exact hne (even_of_noninv (pdblResult_of_lt_four ps) fun _ => pdblResult_error)
    | padd pd self other =>
      cases h.symm.trans (exec_padd pd self other s)
      rw [finishPoint_err]
      exact hne (even_of_noninv (paddResult_of_lt_four self other) fun _ => paddResult_error)
    | pmul pd ps k =>
      cases h.symm.trans (exec_pmul pd ps k s)
      rw [finishPoint_err]
      exact hne (even_of_noninv (pmulResult_of_lt_four ps k) fun _ => pmulResult_error)
    | pverify ps => exact exec_pverify_err h

/-! ## Priority -/

theorem smulLoop_of_dbl_error {v : Pt} {a m k : Nat} {e : ErrCode} (fuel : Nat) (result : Pt) (hk : 0 < k)
    (h : dbl v a m = .error e) : smulLoop a m (fuel + 1) v result k = .error e := by
  simp [smulLoop, h, Nat.ne_of_gt hk]

theorem dbl_error_eq_noninv {v : Pt} {a m : Nat} {e : ErrCode} (h : dbl v a m = .error e) : e = .noninv := by
  cases v with
  | inf => simp at h
  | aff x y => exact ((dbl_aff_eq_error_iff x y a m e).mp h).1

/-- Settles O36. -/
theorem errorsHaveTheirPriority : Obligations.ErrorsHaveTheirPriority := by
  refine ⟨fun s l hl hr hw => ?illegal, fun s l i hl hr hd hm => ?modulus, fun s l i hl hr hd hm => ?range,
    fun fuel k a m v result e hk h => ⟨smulLoop_of_dbl_error fuel result hk h, dbl_error_eq_noninv h⟩⟩
  case illegal =>
    obtain ⟨e, hd⟩ := (illegalWord_iff_decode_error l.word).mp hw
    exact ⟨_, clock_of_decode_error hl hr hd, raise_errorResult s .illegal⟩
  case modulus =>
    obtain ⟨-, hwf⟩ := (decode_eq_ok_iff l.word i).mp hd
    rw [← sources_of_latch hl] at hm
    exact ⟨_, (clock_of_command hl hr hd).trans (exec_of_modulus_below hwf hm), raise_errorResult s .modulus⟩
  case range =>
    obtain ⟨-, hwf⟩ := (decode_eq_ok_iff l.word i).mp hd
    rw [← sources_of_latch hl] at hm
    rw [clock_of_command hl hr hd]
    exact exec_err_of_modulus_in_range hwf hm

end Sys2Proof.Machine
end

section
/-! PROOFS. The loop of scalar multiplication (spec/42_curve_context.md R160): one equation for each way a turn can go, that
the bound makes no difference once it covers the scalar's bits, and the small scalars. -/

namespace Sys2Proof.Machine

/-! ## One turn of the loop -/

section
variable {a m fuel k : Nat} {v v' result : Pt}

@[simp] theorem smulLoop_scalar_zero (a m fuel : Nat) (v result : Pt) : smulLoop a m fuel v result 0 = .ok result := by
  cases fuel <;> simp [smulLoop]

theorem smulLoop_of_even (result : Pt) (hk : 0 < k) (hd : dbl v a m = .ok v') (hbit : k % 2 = 0) :
    smulLoop a m (fuel + 1) v result k = smulLoop a m fuel v' result (k / 2) := by
  simp [smulLoop, Nat.ne_of_gt hk, hd, hbit]

theorem smulLoop_of_odd {sum : Pt} (hk : 0 < k) (hd : dbl v a m = .ok v') (hbit : k % 2 = 1)
    (hadd : add result v' a m = .ok sum) :
    smulLoop a m (fuel + 1) v result k = smulLoop a m fuel v' sum (k / 2) := by
  simp [smulLoop, Nat.ne_of_gt hk, hd, hbit, hadd]

theorem smulLoop_of_add_error {e : ErrCode} (hk : 0 < k) (hd : dbl v a m = .ok v') (hbit : k % 2 = 1)
    (hadd : add result v' a m = .error e) : smulLoop a m (fuel + 1) v result k = .error e := by
  simp [smulLoop, Nat.ne_of_gt hk, hd, hbit, hadd]

end

/-- From infinity the loop adds infinity, so it leaves the result as it is. -/
theorem smulLoop_inf (a m fuel k : Nat) (result : Pt) : smulLoop a m fuel .inf result k = .ok result := by
  induction fuel generalizing k with
  | zero => rfl
  | succ fuel ih =>
    rcases Nat.eq_zero_or_pos k with rfl | hk
    · simp
    rcases Nat.mod_two_eq_zero_or_one k with hbit | hbit
    · rw [smulLoop_of_even result hk (dbl_inf a m) hbit, ih]
    · rw [smulLoop_of_odd hk (dbl_inf a m) hbit (add_inf_right result a m), ih]

/-- Two bounds that both cover the scalar's bits give the same. -/
theorem smulLoop_fuel {a m f g k : Nat} (v result : Pt) (hf : k < 2 ^ f) (hg : k < 2 ^ g) :
    smulLoop a m f v result k = smulLoop a m g v result k := by
  induction f generalizing g v result k with
  | zero =>
    obtain rfl : k = 0 := by simpa using hf
    simp
  | succ f ih =>
    rcases Nat.eq_zero_or_pos k with rfl | hk
    · simp
    obtain ⟨g, rfl⟩ : ∃ g', g = g' + 1 := by
      refine ⟨g - 1, (Nat.sub_add_cancel (Nat.pos_of_ne_zero fun h0 => ?_)).symm⟩
      simp [h0] at hg
      omega
    have hf' : k / 2 < 2 ^ f := by rw [pow_succ] at hf; omega
    have hg' : k / 2 < 2 ^ g := by rw [pow_succ] at hg; omega
    cases hd : dbl v a m with
    | error e => rw [smulLoop_of_dbl_error f result hk hd, smulLoop_of_dbl_error g result hk hd]
    | ok v' =>
      rcases Nat.mod_two_eq_zero_or_one k with hbit | hbit
      · rw [smulLoop_of_even result hk hd hbit, smulLoop_of_even result hk hd hbit, ih v' result hf' hg']
      · cases hadd : add result v' a m with
        | error e => rw [smulLoop_of_add_error hk hd hbit hadd, smulLoop_of_add_error hk hd hbit hadd]
        | ok sum => rw [smulLoop_of_odd hk hd hbit hadd, smulLoop_of_odd hk hd hbit hadd, ih v' sum hf' hg']

/-! ## Scalar multiplication -/

@[simp] theorem smul_inf (k a m : Nat) : smul k .inf a m = .ok .inf := rfl

/-- The loop on half the scalar, with any bound that covers it. -/
theorem smul_aff (x y a m : Nat) {k fuel : Nat} (hfuel : k / 2 < 2 ^ fuel) :
    smul k (.aff x y) a m = smulLoop a m fuel (.aff x y) (if k % 2 = 1 then .aff x y else .inf) (k / 2) :=
  smulLoop_fuel _ _ (lt_two_pow_bitLength _) hfuel

/-- Settles O58. -/
theorem scalarLoopDoublesThenAddsToTheResult : Obligations.ScalarLoopDoublesThenAddsToTheResult :=
  fun a m => ⟨fun k => smul_inf k a m, fun _ x y _ hfuel => smul_aff x y a m hfuel, smulLoop_scalar_zero a m,
    fun fuel _ _ result hk => ⟨fun _ hd => smulLoop_of_dbl_error fuel result hk hd,
      fun _ hd => ⟨smulLoop_of_even result hk hd,
        fun hbit => ⟨fun _ hadd => smulLoop_of_odd hk hd hbit hadd, fun _ hadd => smulLoop_of_add_error hk hd hbit hadd⟩⟩⟩⟩

@[simp] theorem smul_zero_eq_inf (p : Pt) (a m : Nat) : smul 0 p a m = .ok .inf := by
  cases p with
  | inf => rfl
  | aff x y => simpa using smul_aff x y a m (k := 0) (fuel := 0) (by decide)

@[simp] theorem smul_one_eq (p : Pt) (a m : Nat) : smul 1 p a m = .ok p := by
  cases p with
  | inf => rfl
  | aff x y => simpa using smul_aff x y a m (k := 1) (fuel := 0) (by decide)

/-- The scalar 3 doubles the point and adds the double to the point (R160). -/
theorem smul_three {p q : Pt} {a m : Nat} (hd : dbl p a m = .ok q) : smul 3 p a m = add p q a m := by
  cases p with
  | inf =>
    cases hd
    rfl
  | aff x y =>
    rw [smul_aff x y a m (k := 3) (fuel := 1) (by decide)]
    cases hadd : add (.aff x y) q a m with
    | error e => exact smulLoop_of_add_error Nat.one_pos hd rfl hadd
    | ok sum => exact smulLoop_of_odd Nat.one_pos hd rfl hadd

/-- The scalar 2k on a point whose double is q is k on q: the first turn of the loop takes the double to the place where
`smul` of q begins. -/
theorem smul_two_mul {p q : Pt} {a m : Nat} (k : Nat) (hd : dbl p a m = .ok q) : smul (2 * k) p a m = smul k q a m := by
  cases p with
  | inf =>
    cases hd
    rfl
  | aff x y =>
    rcases Nat.eq_zero_or_pos k with rfl | hk
    · simp
    have hbits : k / 2 < 2 ^ (bitLength k) := (Nat.div_le_self k 2).trans_lt (lt_two_pow_bitLength k)
    have hturn : smul (2 * k) (.aff x y) a m =
        smulLoop a m (bitLength k) q (if k % 2 = 1 then q else .inf) (k / 2) := by
      rw [smul_aff x y a m (k := 2 * k) (fuel := bitLength k + 1)
        (by rw [pow_succ]; have := lt_two_pow_bitLength k; omega), Nat.mul_mod_right, if_neg (by decide),
        Nat.mul_div_cancel_left k (by decide)]
      rcases Nat.mod_two_eq_zero_or_one k with hbit | hbit
      · rw [smulLoop_of_even .inf hk hd hbit, hbit, if_neg (by decide)]
      · rw [smulLoop_of_odd hk hd hbit (add_inf_left q a m), hbit, if_pos rfl]
    rw [hturn]
    cases q with
    | inf => rw [ite_self, smulLoop_inf, smul_inf]
    | aff x' y' => exact (smul_aff x' y' a m hbits).symm

theorem smul_two_mul_of_error {p : Pt} {a m k : Nat} {e : ErrCode} (hk : 0 < k) (hd : dbl p a m = .error e) :
    smul (2 * k) p a m = .error e := by
  cases p with
  | inf => cases hd
  | aff x y =>
    rw [smul_aff x y a m (fuel := bitLength k + 1) (by rw [pow_succ]; have := lt_two_pow_bitLength k; omega)]
    exact smulLoop_of_dbl_error _ _ (by omega) hd

/-- Settles O28. -/
theorem scalarTwiceKOnAPointIsKOnItsDouble : Obligations.ScalarTwiceKOnAPointIsKOnItsDouble := by
  intro p a m
  refine ⟨smul_zero_eq_inf p a m, smul_one_eq p a m, ?two, fun q hd => smul_three hd, fun k q hd => smul_two_mul k hd,
    fun k e hk hd => smul_two_mul_of_error hk hd⟩
  cases hd : dbl p a m with
  | ok q => exact (smul_two_mul 1 hd).trans (smul_one_eq q a m)
  | error e => exact smul_two_mul_of_error Nat.one_pos hd

end Sys2Proof.Machine
end

section
/-! PROOFS. The point commands (spec/41_curve_point.md R130 to R133, R140, R141; spec/42_curve_context.md R160, R161, R170,
R171): each completes with the point of its formulas, PVERIFY with membership on the curve, and a point read back is the point
committed. -/

namespace Sys2Proof.Machine

/-- A point command whose result is p completes with it. -/
theorem pointResult_of_ok {s : State} {pd : Fin 8} {r : Except ErrCode Pt} {p : Pt} (h : r = .ok p) :
    NextSatisfies (.next (s.finishPoint pd r)) (fun t => PointResult s t pd p) :=
  ⟨_, rfl, h ▸ finishPoint_ok s pd p⟩

/-! ## The affine formulas -/

/-- The slope of R132 and R133: numerator times the Fermat inverse of the denominator. -/
theorem slope_eq (num den : Nat) {m : Nat} (hm : 3 < m) :
    mulmod num (invmod den m) m = num * den ^ (m - 2) % m := by
  rw [mulmod, invmod_eq den (by omega), if_neg (by omega), Nat.mul_mod_mod]

/-- The slope of a doubling, over the unreduced numerator and denominator (R132). -/
theorem dbl_slope_eq (x y a : Nat) {m : Nat} (hm : 3 < m) :
    mulmod ((3 * x * x + a % m) % m) (invmod (2 * y % m) m) m = (3 * x ^ 2 + a) * (2 * y) ^ (m - 2) % m := by
  rw [slope_eq _ _ hm]
  have hnum : (3 * x * x + a % m) % m ≡ 3 * x ^ 2 + a [MOD m] := by
    rw [pow_two, ← mul_assoc]
    exact (Nat.mod_modEq _ _).trans ((Nat.ModEq.refl _).add (Nat.mod_modEq _ _))
  exact hnum.mul ((Nat.mod_modEq _ _).pow _)

/-- The slope of a chord, as an integer mod M (R133). -/
theorem add_slope_eq (num den : Int) {m : Nat} (hm : 3 < m) :
    (mulmod (residue num m) (invmod (residue den m) m) m : Int) = num * den ^ (m - 2) % m := by
  have hpos : 0 < m := by omega
  rw [slope_eq _ _ hm]
  push_cast
  rw [residue_cast _ hpos, residue_cast _ hpos]
  exact (Int.mod_modEq num m).mul ((Int.mod_modEq den m).pow _)

/-- The coordinates of the third point of a chord (R132, R133). -/
theorem chordPoint_eq (c x1 y1 x2 : Nat) {m : Nat} (hm : 0 < m) :
    ∃ x3 y3 : Nat, (x3 : Int) = ((c : Int) ^ 2 - x1 - x2) % m ∧ (y3 : Int) = (c * ((x1 : Int) - x3) - y1) % m ∧
      chordPoint c x1 y1 x2 m = .aff x3 y3 := by
  refine ⟨_, _, ?_, residue_cast _ hm, rfl⟩
  rw [residue_cast _ hm, pow_two]

/-! ## PDBL and PADD -/

/-- Settles O23. -/
theorem pdblDoublesThePoint : Obligations.PdblDoublesThePoint := by
  intro pd ps s hm M x y c
  rw [exec_pdbl, pdblResult_of_lt hm]
  refine ⟨fun h => pointResult_of_ok ?infinity, fun hinf hy hd => ?affine⟩
  case infinity =>
    cases hinf : s.sources.getInf ps with
    | true => rw [rdpt_of_inf _ _ hinf, dbl_inf]
    | false =>
      have hy : y = 0 := h.resolve_left (by simp [hinf])
      rw [rdpt_of_affine _ _ hinf, dbl_aff, if_pos hy]
  case affine =>
    obtain ⟨x3, y3, hx3, hy3, hpoint⟩ := chordPoint_eq ((3 * x ^ 2 + s.sources.a) * (2 * y) ^ (M - 2) % M) x y x
      (show 0 < M by omega)
    refine ⟨x3, y3, ?_, hy3, pointResult_of_ok ?_⟩
    · rw [hx3, sub_sub, ← two_mul (x : Int)]
    · rw [rdpt_of_affine _ _ hinf, dbl_aff, if_neg hy, if_neg hd, dbl_slope_eq _ _ _ hm, hpoint]

/-- Settles O24. -/
theorem paddAddsThePoints : Obligations.PaddAddsThePoints := by
  intro pd self other s hm M x1 y1 x2 y2 c add
  have hexec : exec add s = .next (s.finishPoint pd
      (Machine.add (s.sources.rdpt self) (s.sources.rdpt other) (s.sources.a % M) M)) := by
    rw [exec_padd, paddResult_of_lt hm]
  rw [hexec]
  refine ⟨fun ho hs => pointResult_of_ok ?bothInf, fun ho hs => pointResult_of_ok ?otherInf,
    fun ho hs => pointResult_of_ok ?selfInf, fun ho hs hx hy => pointResult_of_ok ?opposite,
    fun ho hs hx hy => ?double, fun ho hs hx => ?chord⟩
  case bothInf => rw [rdpt_of_inf _ _ ho, rdpt_of_inf _ _ hs, add_inf_right]
  case otherInf => rw [rdpt_of_inf _ _ ho, rdpt_of_affine _ _ hs, add_inf_right]
  case selfInf => rw [rdpt_of_affine _ _ ho, rdpt_of_inf _ _ hs, add_inf_left]
  all_goals rw [rdpt_of_affine _ _ ho, rdpt_of_affine _ _ hs]
  case opposite =>
    change Machine.add (.aff x1 y1) (.aff x2 y2) _ M = _
    rw [← hx, add_aff_of_y_ne x1 _ M hy]
  case double =>
    change Host.Outcome.next (s.finishPoint pd (Machine.add (.aff x1 y1) (.aff x2 y2) _ M)) = _
    rw [← hx, ← hy, add_aff_same, exec_pdbl, pdblResult_of_lt hm, rdpt_of_affine _ _ hs]
  case chord =>
    obtain ⟨x3, y3, hx3, hy3, hpoint⟩ := chordPoint_eq
      (mulmod (residue ((y2 : Int) - y1) M) (invmod (residue ((x2 : Int) - x1) M) M) M) x1 y1 x2 (show 0 < M by omega)
    rw [add_slope_eq _ _ hm] at hx3 hy3
    exact ⟨x3, y3, hx3, hy3, pointResult_of_ok ((add_aff_of_x_ne y1 y2 _ M hx).trans (congrArg _ hpoint))⟩

/-! ## PMUL -/

/-- Settles O26. -/
theorem pmulCommitsTheLoopOrRaisesNoninv : Obligations.PmulCommitsTheLoopOrRaisesNoninv := by
  intro pd ps k s hm result pmul
  have hpos : 0 < s.sources.m := by omega
  have hexec : exec pmul s = .next (s.finishPoint pd result) := by
    rw [exec_pmul, pmulResult_of_lt hm]
  rw [hexec]
  refine ⟨fun p h => pointResult_of_ok h, fun e h => ?_⟩
  obtain ⟨rfl, heven⟩ := smul_error hpos (rdpt_reduced s.sources ps hpos) h
  exact ⟨rfl, heven, (finishPoint_errorResult_iff s pd result .noninv).mpr h⟩

/-- Settles O27. -/
theorem pmulCompletesOverAnOddModulus : Obligations.PmulCompletesOverAnOddModulus := by
  intro pd ps k s hm hodd
  have hpos : 0 < s.sources.m := by omega
  have hred := rdpt_reduced s.sources ps hpos
  rw [exec_pmul, pmulResult_of_lt hm]
  cases h : smul (s.sources.getF (fieldIndex k)) (s.sources.rdpt ps) (s.sources.a % s.sources.m) s.sources.m with
  | error e =>
    have heven := (smul_error hpos hred h).2
    omega
  | ok p =>
    refine ⟨p, smul_reduced hpos hred h, pointResult_of_ok rfl, ?infinity, fun hone => ?one⟩
    case infinity =>
      rintro (hzero | hinf)
      · rw [hzero, smul_zero_eq_inf] at h
        exact (Except.ok.inj h).symm
      · rw [rdpt_of_inf _ _ hinf, smul_inf] at h
        exact (Except.ok.inj h).symm
    case one =>
      rw [hone, smul_one_eq] at h
      exact (Except.ok.inj h).symm

/-! ## PVERIFY -/

/-- Membership over the reduced coordinates is the curve equation over the unreduced ones (R161). -/
theorem verify_aff_iff (x y a b : Nat) {m : Nat} (hm : 0 < m) :
    verify (.aff (x % m) (y % m)) (a % m) (b % m) m = true ↔ y ^ 2 ≡ x ^ 3 + a * x + b [MOD m] := by
  have hlhs : powmod (y % m) 2 m = y ^ 2 % m := by
    rw [powmod_eq _ _ _ hm, if_neg (by decide), ← Nat.pow_mod]
  have hcube : powmod (x % m) 3 m = x ^ 3 % m := by
    rw [powmod_eq _ _ _ hm, if_neg (by decide), ← Nat.pow_mod]
  have hrhs : (powmod (x % m) 3 m + mulmod (a % m) (x % m) m + b % m) % m = (x ^ 3 + a * x + b) % m := by
    rw [hcube, mulmod, ← Nat.mul_mod]
    simp [Nat.add_mod]
  rw [verify, hlhs, hrhs, beq_iff_eq]
  rfl

/-- Settles O29. -/
theorem pverifyTestsTheCurveEquation : Obligations.PverifyTestsTheCurveEquation := by
  intro ps s hm
  refine ⟨verify (s.sources.rdpt ps) (s.sources.a % s.sources.m) (s.sources.b % s.sources.m) s.sources.m, ?value, ?completes⟩
  case value =>
    cases hinf : s.sources.getInf ps with
    | true => simp [rdpt_of_inf _ _ hinf, verify]
    | false =>
      rw [rdpt_of_affine _ _ hinf, verify_aff_iff _ _ _ _ (by omega)]
      simp
  case completes =>
    rw [exec_pverify, pverifyResult_of_lt hm, nextSatisfies_next]
    exact finishVerify_ok s _

/-! ## Reading back -/

/-- A committed point below M reads back as it is (R130, R131). -/
theorem finishPoint_readBack {s : State} (pd : Fin 8) {p : Pt} (hp : p.Reduced s.regs.m) :
    (s.finishPoint pd (.ok p)).regs.rdpt pd = p := rdpt_wrpt s.regs pd p hp

/-- Settles O32. -/
theorem pointResultsReadBackUnchanged : Obligations.PointResultsReadBackUnchanged := by
  intro pd ps p2 k s t i hi hm ht hok
  obtain ⟨r, hr, hred⟩ : ∃ r, exec i s = .next (s.finishPoint pd r) ∧ ∀ p, r = .ok p → p.Reduced s.regs.m := by
    rw [← hm]
    rcases hi with rfl | rfl | rfl
    · exact ⟨_, exec_pdbl pd ps s, fun p h => (pdblResult_reduced h).2⟩
    · exact ⟨_, exec_padd pd ps p2 s, fun p h => (paddResult_reduced h).2⟩
    · exact ⟨_, exec_pmul pd ps k s, fun p h => (pmulResult_reduced h).2⟩
  cases ht.symm.trans hr
  rw [finishPoint_err, resultCode_eq_zero_iff] at hok
  obtain ⟨p, rfl⟩ := hok
  exact ⟨p, hred p rfl, finishPoint_ok s pd p, finishPoint_readBack pd (hred p rfl)⟩

end Sys2Proof.Machine
end

section
/-! PROOFS. The group of the curve (spec/41_curve_point.md R132, R133; spec/42_curve_context.md R160): over a prime modulus the
model's formulas are the chord and tangent of the field of integers mod p, so addition commutes, PADD and PDBL are Mathlib's
group law on the points of the curve, and PMUL is the group's multiple. -/

namespace Sys2Proof.Machine

/-! ## The formulas in the field of integers mod p -/

section
variable {p : Nat} [Fact p.Prime]

/-- The residue of an integer is the value of its class. -/
theorem residue_eq_val (z : Int) : residue z p = (z : ZMod p).val := by
  have hpos : 0 < p := (Fact.out : p.Prime).pos
  rw [← residue_zmod z p hpos, ZMod.val_natCast_of_lt (residue_lt z hpos)]

/-- `chordPoint` with its coordinates in the field (`chordPoint_eq_fieldChord`). -/
def fieldChord (c x1 y1 x2 : ZMod p) : Pt :=
  let x3 := c ^ 2 - x1 - x2
  .aff x3.val (c * (x1 - x3) - y1).val

theorem chordPoint_eq_fieldChord (c : Nat) (x1 y1 x2 : ZMod p) :
    chordPoint c x1.val y1.val x2.val p = fieldChord (c : ZMod p) x1 y1 x2 := by
  simp only [chordPoint, fieldChord, residue_eq_val]
  push_cast
  simp only [ZMod.natCast_val, ZMod.cast_id', id, pow_two]

theorem val_eq_iff {x y : ZMod p} : x.val = y.val ↔ x = y := (ZMod.val_injective p).eq_iff

/-- The slope is a quotient in the field. -/
theorem slope_zmod (num : Nat) {den : Nat} (hden : (den : ZMod p) ≠ 0) :
    ((mulmod num (invmod den p) p : Nat) : ZMod p) = (num : ZMod p) / (den : ZMod p) := by
  have hmod : den % p ≠ 0 := by rwa [Ne, ZMod.natCast_eq_zero_iff, Nat.dvd_iff_mod_eq_zero] at hden
  rw [mulmod_zmod, invmod_zmod hmod, div_eq_mul_inv]

/-- The chord case of `add`, in the field. -/
theorem add_val_of_x_ne {x1 x2 : ZMod p} (y1 y2 : ZMod p) (a : Nat) (hx : x1 ≠ x2) :
    add (.aff x1.val y1.val) (.aff x2.val y2.val) a p = .ok (fieldChord ((y2 - y1) / (x2 - x1)) x1 y1 x2) := by
  have hcast : ∀ u v : ZMod p, ((residue ((v.val : Int) - u.val) p : Nat) : ZMod p) = v - u := by
    intro u v
    rw [residue_zmod _ _ (Fact.out : p.Prime).pos]
    push_cast
    rw [ZMod.natCast_zmod_val, ZMod.natCast_zmod_val]
  have hden : ((residue ((x2.val : Int) - x1.val) p : Nat) : ZMod p) ≠ 0 := by
    rw [hcast]
    exact sub_ne_zero.mpr hx.symm
  rw [add_aff_of_x_ne _ _ _ _ (val_eq_iff.not.mpr hx), chordPoint_eq_fieldChord, slope_zmod _ hden, hcast, hcast]

theorem two_ne_zero_zmod (hp : 3 < p) : (2 : ZMod p) ≠ 0 := by
  have hval : ((2 : Nat) : ZMod p) ≠ 0 := by
    rw [Ne, ZMod.natCast_eq_zero_iff]
    exact Nat.not_dvd_of_pos_of_lt Nat.two_pos (by omega)
  exact_mod_cast hval

/-- The tangent case of `dbl`, in the field; 2 is invertible there. -/
theorem dbl_val_of_y_ne (hp : 3 < p) (x : ZMod p) {y : ZMod p} (a : Nat) (hy : y ≠ 0) :
    dbl (.aff x.val y.val) a p = .ok (fieldChord ((3 * x ^ 2 + (a : ZMod p)) / (2 * y)) x y x) := by
  have hcast : ((2 * y.val % p : Nat) : ZMod p) = 2 * y := by simp
  have hden : ((2 * y.val % p : Nat) : ZMod p) ≠ 0 := by
    rw [hcast]
    exact mul_ne_zero (two_ne_zero_zmod hp) hy
  have hnat : 2 * y.val % p ≠ 0 := fun h => hden (by rw [h, Nat.cast_zero])
  have hnum : (((3 * x.val * x.val + a) % p : Nat) : ZMod p) = 3 * x ^ 2 + a := by
    rw [ZMod.natCast_mod]
    push_cast
    rw [ZMod.natCast_zmod_val]
    ring
  rw [dbl_aff, if_neg ((ZMod.val_eq_zero y).not.mpr hy), if_neg hnat, chordPoint_eq_fieldChord, slope_zmod _ hden, hcast,
    hnum]

/-- A point and its negative add to infinity: they are different points with equal x, or y = 0 and the sum is a doubling. -/
theorem add_val_neg (hp : 3 < p) (x y : ZMod p) (a : Nat) : add (.aff x.val (-y).val) (.aff x.val y.val) a p = .ok .inf := by
  by_cases hy : y = 0
  · rw [hy, neg_zero, add_aff_same, dbl_aff, if_pos ZMod.val_zero]
  · have hne : -y ≠ y := by
      rw [Ne, neg_eq_iff_add_eq_zero, ← two_mul]
      exact mul_ne_zero (two_ne_zero_zmod hp) hy
    exact add_aff_of_y_ne _ _ _ (val_eq_iff.not.mpr hne)

/-! ## Addition commutes -/

theorem eq_val_of_lt {x : Nat} (h : x < p) : x = (x : ZMod p).val := (ZMod.val_natCast_of_lt h).symm

/-- Both points of a chord give its third point (R133). -/
theorem fieldChord_comm {x1 x2 : ZMod p} (y1 y2 : ZMod p) (hx : x1 ≠ x2) :
    fieldChord ((y2 - y1) / (x2 - x1)) x1 y1 x2 = fieldChord ((y1 - y2) / (x1 - x2)) x2 y2 x1 := by
  have hslope : (y1 - y2) / (x1 - x2) = (y2 - y1) / (x2 - x1) := by
    rw [← neg_sub y2, ← neg_sub x2, neg_div_neg_eq]
  have hline : (y2 - y1) / (x2 - x1) * (x2 - x1) = y2 - y1 := div_mul_cancel₀ _ (sub_ne_zero.mpr hx.symm)
  rw [hslope]
  generalize (y2 - y1) / (x2 - x1) = c at hline
  have hx3 : c ^ 2 - x1 - x2 = c ^ 2 - x2 - x1 := by ring
  have hy3 : c * (x1 - (c ^ 2 - x2 - x1)) - y1 = c * (x2 - (c ^ 2 - x2 - x1)) - y2 := by linear_combination -hline
  simp only [fieldChord, hx3, hy3]

/-- Over a prime modulus `add` commutes on residue points, on the curve or off it (R133). -/
theorem add_comm_of_prime {P Q : Pt} (a : Nat) (hP : P.Reduced p) (hQ : Q.Reduced p) : add P Q a p = add Q P a p := by
  cases P with
  | inf => rw [add_inf_left, add_inf_right]
  | aff x1 y1 =>
    cases Q with
    | inf => rw [add_inf_left, add_inf_right]
    | aff x2 y2 =>
      by_cases hx : x1 = x2
      · subst hx
        by_cases hy : y1 = y2
        · rw [hy]
        · rw [add_aff_of_y_ne x1 a p hy, add_aff_of_y_ne x1 a p (Ne.symm hy)]
      · have hne : (x1 : ZMod p) ≠ x2 := by
          rwa [← val_eq_iff.ne, ← eq_val_of_lt hP.1, ← eq_val_of_lt hQ.1]
        rw [eq_val_of_lt hP.1, eq_val_of_lt hP.2, eq_val_of_lt hQ.1, eq_val_of_lt hQ.2, add_val_of_x_ne _ _ a hne,
          add_val_of_x_ne _ _ a hne.symm, fieldChord_comm _ _ hne]

end

/-- Settles O25. -/
theorem paddCommutesModuloAPrime : Obligations.PaddCommutesModuloAPrime := by
  intro pd p q s hprime hm
  have : Fact s.sources.m.Prime := ⟨hprime⟩
  rw [exec_padd, exec_padd, paddResult_of_lt hm, paddResult_of_lt hm,
    add_comm_of_prime _ (rdpt_reduced _ p hprime.pos) (rdpt_reduced _ q hprime.pos)]

/-! ## The group law -/

@[simp] theorem ptOf_zero {p a b : Nat} [Fact p.Prime] : ptOf (0 : (curveOver p a b).Point) = .inf := rfl

section
variable {p a b : Nat} [Fact p.Prime]

open WeierstrassCurve.Affine

@[simp] theorem curveOver_negY (x y : ZMod p) : (curveOver p a b).negY x y = -y := by
  simp [curveOver, negY]

/-- Mathlib's sum of two points by their slope c is the point of the chord. -/
theorem aff_addX_addY_eq_fieldChord (x1 y1 x2 c : ZMod p) :
    Pt.aff ((curveOver p a b).addX x1 x2 c).val ((curveOver p a b).addY x1 x2 y1 c).val = fieldChord c x1 y1 x2 := by
  have hx : (curveOver p a b).addX x1 x2 c = c ^ 2 - x1 - x2 := by
    simp [addX, curveOver]
  have hy : (curveOver p a b).addY x1 x2 y1 c = c * (x1 - (c ^ 2 - x1 - x2)) - y1 := by
    rw [addY, curveOver_negY, negAddY, hx]
    ring
  rw [hx, hy, fieldChord]

/-- The slope of the tangent at a point of the curve. -/
theorem curveOver_slope_self (x : ZMod p) {y : ZMod p} (hy : y ≠ -y) :
    (curveOver p a b).slope x x y y = (3 * x ^ 2 + a) / (2 * y) := by
  rw [slope_of_Y_ne rfl (by rwa [curveOver_negY]), curveOver_negY]
  simp [curveOver, two_mul]

/-- `add` is the group law on the points of the curve; `a'` is the curve's coefficient, reduced or not. -/
theorem add_ptOf (hp : 3 < p) {a' : Nat} (ha : (a' : ZMod p) = a) (P Q : (curveOver p a b).Point) :
    add (ptOf P) (ptOf Q) a' p = .ok (ptOf (P + Q)) := by
  cases P with
  | zero => exact (add_inf_left _ _ _).trans (congrArg _ (congrArg ptOf (zero_add Q).symm))
  | some x1 y1 h1 =>
    cases Q with
    | zero => exact (add_inf_right _ _ _).trans (congrArg _ (congrArg ptOf (add_zero _).symm))
    | some x2 y2 h2 =>
      by_cases hx : x1 = x2
      · subst hx
        by_cases hneg : y1 = -y2
        case pos =>
          rw [Point.add_of_Y_eq rfl (by rwa [curveOver_negY]), ptOf_zero]
          subst hneg
          exact add_val_neg hp x1 y2 a'
        case neg =>
          obtain rfl : y1 = y2 := Y_eq_of_Y_ne h1.1 h2.1 rfl (by rwa [curveOver_negY])
          have hy : y1 ≠ 0 := fun h0 => hneg (by simp [h0])
          rw [Point.add_self_of_Y_ne (by rwa [curveOver_negY])]
          simp only [ptOf]
          rw [add_aff_same, dbl_val_of_y_ne hp x1 a' hy, aff_addX_addY_eq_fieldChord, curveOver_slope_self x1 hneg, ha]
      · rw [Point.add_of_X_ne hx]
        simp only [ptOf]
        rw [add_val_of_x_ne y1 y2 a' hx, aff_addX_addY_eq_fieldChord, slope_of_X_ne hx, ← neg_sub y1, ← neg_sub x1,
          neg_div_neg_eq]

theorem dbl_ptOf (hp : 3 < p) {a' : Nat} (ha : (a' : ZMod p) = a) (P : (curveOver p a b).Point) :
    dbl (ptOf P) a' p = .ok (ptOf (P + P)) := by
  rw [← add_self_eq_dbl, add_ptOf hp ha]

/-- The loop of R160 in the group: from the running point V and the result R it computes R + 2k·V. -/
theorem smulLoop_ptOf (hp : 3 < p) {a' : Nat} (ha : (a' : ZMod p) = a) {fuel k : Nat} (V R : (curveOver p a b).Point)
    (hfuel : k < 2 ^ fuel) : smulLoop a' p fuel (ptOf V) (ptOf R) k = .ok (ptOf (R + (2 * k) • V)) := by
  induction fuel generalizing V R k with
  | zero =>
    obtain rfl : k = 0 := by simpa using hfuel
    simp
  | succ fuel ih =>
    rcases Nat.eq_zero_or_pos k with rfl | hk
    · simp
    have hdbl := dbl_ptOf hp ha V
    have hfuel' : k / 2 < 2 ^ fuel := by rw [pow_succ] at hfuel; omega
    have hturn : (2 * (k / 2)) • (V + V) = (4 * (k / 2)) • V := by
      rw [← two_nsmul, ← mul_nsmul']
      congr 1
      ring
    rcases Nat.mod_two_eq_zero_or_one k with hbit | hbit
    · have hk4 : 2 * k = 4 * (k / 2) := by omega
      rw [smulLoop_of_even _ hk hdbl hbit, ih _ _ hfuel', hturn, hk4]
    · have hk4 : 2 * k = 2 + 4 * (k / 2) := by omega
      rw [smulLoop_of_odd hk hdbl hbit (add_ptOf hp ha R (V + V)), ih _ _ hfuel', hturn, hk4, add_nsmul, two_nsmul,
        add_assoc]

/-- `smul` is the group's multiple (R160). -/
theorem smul_ptOf (hp : 3 < p) {a' : Nat} (ha : (a' : ZMod p) = a) (k : Nat) (P : (curveOver p a b).Point) :
    smul k (ptOf P) a' p = .ok (ptOf (k • P)) := by
  cases hP : P with
  | zero => exact congrArg _ (congrArg (ptOf (p := p) (a := a) (b := b)) (nsmul_zero k).symm)
  | some x y h =>
    have hfirst : (if k % 2 = 1 then .aff x.val y.val else .inf) = ptOf ((k % 2) • P) := by
      rcases Nat.mod_two_eq_zero_or_one k with hbit | hbit
      · rw [hbit, zero_nsmul, ptOf_zero, if_neg (by decide)]
      · rw [hbit, one_nsmul, if_pos rfl, hP, ptOf]
    have hsum : (k % 2) • P + (2 * (k / 2)) • P = k • P := by rw [← add_nsmul, Nat.mod_add_div]
    have hloop := smulLoop_ptOf hp ha P ((k % 2) • P) (lt_two_pow_bitLength (k / 2))
    rw [← hfirst, hsum, hP] at hloop
    exact hloop

end

/-- The coefficient a command computes with is the curve's, mod p. -/
theorem coefficient_zmod {p a' a : Nat} (h : a' % p = a % p) : ((a' % p : Nat) : ZMod p) = a := by
  rw [h, ZMod.natCast_mod]

/-- Settles O30. -/
theorem paddAndPdblAreTheGroupLaw : Obligations.PaddAndPdblAreTheGroupLaw := by
  rintro p a b _ P Q pd p1 p2 s hp rfl ha hP hQ
  have hcoeff := coefficient_zmod ha
  rw [exec_padd, exec_pdbl, paddResult_of_lt hp, pdblResult_of_lt hp, hP, hQ]
  exact ⟨pointResult_of_ok (add_ptOf hp hcoeff P Q), pointResult_of_ok (dbl_ptOf hp hcoeff P)⟩

/-- Settles O31. -/
theorem pmulIsTheGroupMultiple : Obligations.PmulIsTheGroupMultiple := by
  rintro p a b _ P pd ps k s hp rfl ha hP
  rw [exec_pmul, pmulResult_of_lt hp, hP]
  exact pointResult_of_ok (smul_ptOf hp (coefficient_zmod ha) _ P)

end Sys2Proof.Machine
end

section
/-! PROOFS. Frames (spec/10_state.md R22 to R28, spec/60_exceptions.md R183, R193): what a command leaves alone, as state and as
the host reads it through the window. -/

namespace Sys2Proof.Machine

/-- Whatever a command answers, it is a completion (R183, R184). -/
theorem completes_of_exec {i : Instr} {s t : State} (h : exec i s = .next t) : Completes s i t := by
  obtain ⟨u, hu, hc⟩ := exec_completes i s
  exact Host.Outcome.next.inj (h.symm.trans hu) ▸ hc

/-- Only PVERIFY writes VALID (R26). -/
theorem valid_of_completes {s t : State} {i : Instr} (h : Completes s i t) (hi : ∀ s1, i ≠ .pverify s1) :
    t.status.valid = s.status.valid := by
  cases h with
  | modmul | modpow | modinv | pdbl | padd | pmul | error => rfl
  | pverify s1 => exact absurd rfl (hi s1)

/-- Only the point commands write PINF (R23, R30). -/
theorem pinf_of_completes {s t : State} {i : Instr} (h : Completes s i t) (hadd : ∀ d s1 s2, i ≠ .padd d s1 s2)
    (hdbl : ∀ d s1, i ≠ .pdbl d s1) (hmul : ∀ d s1 s2, i ≠ .pmul d s1 s2) : t.regs.pinf = s.regs.pinf := by
  cases h with
  | modmul | modpow | modinv | pverify | error => rfl
  | pdbl d s1 => exact absurd rfl (hdbl d s1)
  | padd d s1 s2 => exact absurd rfl (hadd d s1 s2)
  | pmul d s1 s2 => exact absurd rfl (hmul d s1 s2)

/-- Settles O38. -/
theorem commandsLeaveConfigurationAndControlAlone : Obligations.CommandsLeaveConfigurationAndControlAlone := by
  intro i s t h
  have hc := completes_of_exec h
  have hw := completedWith_of_completes hc
  exact ⟨hw.modulus, hw.coeffA, hw.coeffB, hw.ie, hw.wdrop, hw.build, hw.env, valid_of_completes hc,
    pinf_of_completes hc⟩

/-! ## Through the window -/

/-- After a completion a word outside STATUS reads as before, if PINF or the F register it shows is as before: the rest of the
window a completion never changes. -/
theorem readWord_of_completedWith {s t : State} {err : BitVec 4} {valid : Bool} {k : WordIndex}
    (h : CompletedWith s t err valid) (hstatus : locate s.build k ≠ .status)
    (hpinf : locate s.build k = .pinf → t.regs.pinf = s.regs.pinf)
    (hf : ∀ i j, locate s.build k = .operand (.f i) j → t.regs.getF i = s.regs.getF i) :
    t.readWord k = s.readWord k := by
  refine readWord_congr s t k h.build h.ie hstatus hpinf fun r j hk => ?_
  cases r with
  | m => exact h.modulus
  | a => exact h.coeffA
  | b => exact h.coeffB
  | f i => exact hf i j hk

theorem finishField_getF_ne (s : State) {d : RegField} (r : Except ErrCode Nat) {j : Fin 16} (hj : j ≠ fieldIndex d) :
    (s.finishField d r).regs.getF j = s.regs.getF j := by
  cases r with
  | ok v => exact (finishField_ok s d v).others j hj
  | error e => rw [(finishField_error s d e).regs]

theorem finishPoint_getF_ne (s : State) {pd : Fin 8} (r : Except ErrCode Pt) {j : Fin 16} (hx : j ≠ xIndex pd)
    (hy : j ≠ yIndex pd) : (s.finishPoint pd r).regs.getF j = s.regs.getF j := by
  cases r with
  | ok p => exact (finishPoint_ok s pd p).others j hx hy
  | error e => rw [(finishPoint_error s pd e).regs]

theorem finishVerify_regs (s : State) (r : Except ErrCode Bool) : (s.finishVerify r).regs = s.regs := by
  cases r <;> rfl

/-- The operand forms for which `exec_field` speaks, from an outcome of one of them. -/
theorem exec_field_of_next {s t : State} {d s1 s2 : RegField} (h : exec (.modmul d s1 s2) s = .next t ∨
    exec (.modpow d s1 s2) s = .next t ∨ exec (.modinv d s1) s = .next t) :
    ∃ i r, exec i s = .next t ∧ t = s.finishField d r := by
  rcases h with h | h | h <;> exact ⟨_, _, h, (Host.Outcome.next.inj h).symm⟩

/-- Settles O39. -/
theorem fieldCommandsLeaveOtherWindowWordsAlone : Obligations.FieldCommandsLeaveOtherWindowWordsAlone := by
  intro s t k hstatus
  refine ⟨fun d s1 s2 h hd => ?field, fun s1 h => ?verify⟩
  case field =>
    obtain ⟨i, r, hi, rfl⟩ := exec_field_of_next h
    refine readWord_of_completedWith (completedWith_of_completes (completes_of_exec hi)) hstatus
      (fun _ => finishField_pinf s d r) fun i j hk => finishField_getF_ne s r ?_
    rintro rfl
    exact hd j hk
  case verify =>
    obtain ⟨r, hr⟩ := exec_verify s1 s.sources
    cases h.symm.trans (hr s rfl)
    exact readWord_of_completedWith (completedWith_of_completes (completes_of_exec h)) hstatus
      (fun _ => by rw [finishVerify_regs]) fun _ _ _ => by rw [finishVerify_regs]

/-- Settles O40. -/
theorem pointCommandsLeaveOtherWindowWordsAlone : Obligations.PointCommandsLeaveOtherWindowWordsAlone := by
  intro s t k pd hstatus hpinf hx hy s1 s2 h
  obtain ⟨i, hi, hexec⟩ : ∃ i, (i = .pdbl (pointField pd) s1 ∨ i = .padd (pointField pd) s1 s2 ∨
      i = .pmul (pointField pd) s1 s2) ∧ exec i s = .next t := by
    rcases h with h | h | h
    · exact ⟨_, .inl rfl, h⟩
    · exact ⟨_, .inr (.inl rfl), h⟩
    · exact ⟨_, .inr (.inr rfl), h⟩
  obtain ⟨r, hr⟩ := exec_point hi s.sources
  cases hexec.symm.trans (hr s rfl)
  refine readWord_of_completedWith (completedWith_of_completes (completes_of_exec hexec)) hstatus
    (fun h => absurd h hpinf) fun i j hk => finishPoint_getF_ne s r ?_ ?_
  · rintro rfl
    exact hx j hk
  · rintro rfl
    exact hy j hk

end Sys2Proof.Machine
end

section
/-! PROOFS. Words of the window (spec/20_memory.md R61 to R63, R67, R68, R72; spec/10_state.md R26): the bits of a
register after one of its words is replaced, that a location has one index, and what a write changes for a later read. -/

namespace Sys2Proof.Machine

/-! ## The bits of a replaced word -/

theorem wordOf_getLsbD (v j : Nat) {i : Nat} (hi : i < 32) : (wordOf v j).getLsbD i = v.testBit (32 * j + i) := by
  rw [wordOf, BitVec.getLsbD_ofNat, decide_eq_true hi, Bool.true_and, Nat.testBit_div_two_pow, Nat.add_comm]

/-- Replacing word j replaces the bits 32j+31 : 32j and no other (R63). -/
theorem testBit_replaceWord (v j : Nat) (x : Word) (i : Nat) :
    (replaceWord v j x).testBit i = if i / 32 = j then x.getLsbD (i % 32) else v.testBit i := by
  have hlow : v % 2 ^ (32 * j) < 2 ^ (32 * j) := Nat.mod_lt _ (Nat.two_pow_pos _)
  have hsplit : replaceWord v j x =
      2 ^ (32 * j) * (2 ^ 32 * (v / 2 ^ (32 * (j + 1))) + x.toNat) + v % 2 ^ (32 * j) := by
    rw [replaceWord, show 32 * (j + 1) = 32 * j + 32 from rfl, pow_add]
    ring
  rw [hsplit, Nat.testBit_two_pow_mul_add _ hlow, Nat.testBit_two_pow_mul_add _ x.isLt]
  rcases Nat.lt_trichotomy (i / 32) j with hlt | rfl | hgt
  · rw [if_pos (by omega), if_neg (by omega), Nat.testBit_mod_two_pow, decide_eq_true (by omega), Bool.true_and]
  · rw [if_neg (by omega), if_pos (by omega), if_pos rfl, BitVec.testBit_toNat,
      show i - 32 * (i / 32) = i % 32 by omega]
  · rw [if_neg (by omega), if_neg (by omega), if_neg (by omega), Nat.testBit_div_two_pow,
      show i - 32 * j - 32 + 32 * (j + 1) = i by omega]

/-- A replaced word reads back. -/
theorem wordOf_replaceWord_same (v j : Nat) (x : Word) : wordOf (replaceWord v j x) j = x := by
  apply BitVec.eq_of_getLsbD_eq
  intro i hi
  rw [wordOf_getLsbD _ _ hi, testBit_replaceWord, if_pos (by omega), show (32 * j + i) % 32 = i by omega]

/-- The other words of the register stay (R67). -/
theorem wordOf_replaceWord_ne (v : Nat) {j k : Nat} (x : Word) (h : k ≠ j) :
    wordOf (replaceWord v j x) k = wordOf v k := by
  apply BitVec.eq_of_getLsbD_eq
  intro i hi
  rw [wordOf_getLsbD _ _ hi, wordOf_getLsbD _ _ hi, testBit_replaceWord, if_neg (by omega)]

theorem replaceWord_replaceWord (v j : Nat) (x : Word) : replaceWord (replaceWord v j x) j x = replaceWord v j x := by
  apply Nat.eq_of_testBit_eq
  intro i
  rw [testBit_replaceWord, testBit_replaceWord]
  split <;> rfl

/-! ## One operand register -/

@[simp] theorem get_set_same (r : Regs) (o : OperandReg) (v : Nat) : (r.set o v).get o = v := by
  cases o with
  | m | a | b => rfl
  | f i => exact setF_getF_same r i v

theorem get_set_ne (r : Regs) {o o' : OperandReg} (v : Nat) (h : o' ≠ o) : (r.set o v).get o' = r.get o' := by
  cases o with
  | m =>
    cases o' with
    | m => exact absurd rfl h
    | a | b | f => rfl
  | a =>
    cases o' with
    | a => exact absurd rfl h
    | m | b | f => rfl
  | b =>
    cases o' with
    | b => exact absurd rfl h
    | m | a | f => rfl
  | f i =>
    cases o' with
    | m | a | b => rfl
    | f k => exact setF_getF_ne r v fun hki => h (hki ▸ rfl)

@[simp] theorem set_set (r : Regs) (o : OperandReg) (v w : Nat) : (r.set o v).set o w = r.set o w := by
  cases o with
  | m | a | b => rfl
  | f i => simp [Regs.set, Regs.setF]

@[simp] theorem set_get (r : Regs) (o : OperandReg) : r.set o (r.get o) = r := by
  cases o with
  | m | a | b => rfl
  | f i => simp [Regs.set, Regs.setF, Regs.get, Regs.getF]

/-- The state with other registers, as a host write of an operand word leaves it (`writeWord_operand_of_idle`). -/
def State.withRegs (s : State) (regs : Regs) : State := { s with regs }

@[simp] theorem withRegs_regs (s : State) (regs : Regs) : (s.withRegs regs).regs = regs := rfl
@[simp] theorem withRegs_withRegs (s : State) (regs regs' : Regs) :
    (s.withRegs regs).withRegs regs' = s.withRegs regs' := rfl
theorem withRegs_self (s : State) : s.withRegs s.regs = s := rfl

/-! ## A location has one index -/

/-- The byte offset of a location (R61); `offsetOf_locate` ties it to the address map. -/
def offsetOf : Loc → Nat
  | .id => 0x000
  | .param => 0x004
  | .ctrl => 0x008
  | .status => 0x00C
  | .cmd => 0x010
  | .pinf => 0x014
  | .operand r j => slotOffset r + 4 * j
  | .reserved => 0

theorem indexOf_byteOffset (i : WordIndex) : indexOf (byteOffset i) = i := by
  rw [indexOf, byteOffset, Nat.mul_div_cancel_left _ (by decide), BitVec.ofNat_toNat, BitVec.setWidth_eq]

/-- An aligned offset of the window is of one of the six single registers, of a gap, or of a word of a slot (R61). -/
theorem offset_cases {o : Nat} (h4 : o % 4 = 0) (ho : o < 0x800) :
    o ∈ [0x000, 0x004, 0x008, 0x00C, 0x010, 0x014] ∨ (0x018 ≤ o ∧ o < 0x040 ∨ 0x100 ≤ o ∧ o < 0x400) ∨
      ∃ r j, j < 16 ∧ o = slotOffset r + 4 * j := by
  by_cases hsingle : o < 0x018
  · left
    simp only [List.mem_cons, List.not_mem_nil, or_false]
    omega
  by_cases hgap : 0x018 ≤ o ∧ o < 0x040 ∨ 0x100 ≤ o ∧ o < 0x400
  · exact .inr (.inl hgap)
  refine .inr (.inr ?_)
  by_cases hm : o < 0x080
  · exact ⟨.m, (o - 0x040) / 4, by omega, by simp only [slotOffset]; omega⟩
  by_cases ha : o < 0x0C0
  · exact ⟨.a, (o - 0x080) / 4, by omega, by simp only [slotOffset]; omega⟩
  by_cases hb : o < 0x100
  · exact ⟨.b, (o - 0x0C0) / 4, by omega, by simp only [slotOffset]; omega⟩
  · exact ⟨.f ⟨(o - 0x400) / 0x40, by omega⟩, (o - 0x400) % 0x40 / 4, by omega, by simp only [slotOffset]; omega⟩

theorem offsetOf_locate {b : Build} {i : WordIndex} (h : locate b i ≠ .reserved) :
    offsetOf (locate b i) = byteOffset i := by
  have h4 : byteOffset i % 4 = 0 := Nat.mul_mod_right 4 i.toNat
  have hlt : byteOffset i < 0x800 := by
    have := i.isLt
    unfold byteOffset
    omega
  rw [← indexOf_byteOffset i] at h
  conv_lhs => rw [← indexOf_byteOffset i]
  rcases offset_cases h4 hlt with hsingle | hgap | ⟨r, j, hj, ho⟩
  · simp only [List.mem_cons, List.not_mem_nil, or_false] at hsingle
    rcases hsingle with ho | ho | ho | ho | ho | ho <;> rw [ho] <;> rfl
  · exact absurd (locate_gap b h4 hgap) h
  · rw [ho, locate_slot b r hj] at h ⊢
    split at h
    next hnw => rw [if_pos hnw]; rfl
    next => exact absurd rfl h

/-- Two indices of one location, other than a reserved one, are the same. -/
theorem locate_inj {b : Build} {i k : WordIndex} (h : locate b k = locate b i) (hres : locate b i ≠ .reserved) :
    k = i := by
  have hoffset : byteOffset k = byteOffset i := by
    rw [← offsetOf_locate hres, ← offsetOf_locate (h ▸ hres), h]
  apply BitVec.eq_of_toNat_eq
  unfold byteOffset at hoffset
  omega

/-- The words of a slot that the build has (R61). -/
theorem locate_slot_of_lt {b : Build} (r : OperandReg) {j : Nat} (hj : j < b.nw) :
    locate b (indexOf (slotOffset r + 4 * j)) = .operand r j := by
  have h16 : b.nw ≤ 16 := by unfold Build.nw; omega
  rw [locate_slot b r (by omega), if_pos hj]

/-! ## Reads -/

theorem readWord_of_operand {s : State} {k : WordIndex} {r : OperandReg} {j : Nat}
    (h : locate s.build k = .operand r j) : s.readWord k = wordOf (s.regs.get r) j := by
  simp [State.readWord, h]

theorem readWord_withRegs_of_operand {s : State} {k : WordIndex} {r : OperandReg} {j : Nat} (regs : Regs)
    (h : locate s.build k = .operand r j) : (s.withRegs regs).readWord k = wordOf (regs.get r) j :=
  readWord_of_operand (s := s.withRegs regs) h

theorem readWord_slot (s : State) (r : OperandReg) {j : Nat} (hj : j < s.build.nw) :
    s.readWord (indexOf (slotOffset r + 4 * j)) = wordOf (s.regs.get r) j :=
  readWord_of_operand (locate_slot_of_lt r hj)

theorem readWord_with_env (s : State) (env : Env) (k : WordIndex) :
    { s with env := env }.readWord k = s.readWord k := rfl

theorem readWord_with_ie {s : State} (ie : Bool) {k : WordIndex} (h : locate s.build k ≠ .ctrl) :
    { s with ie := ie }.readWord k = s.readWord k := by
  unfold State.readWord
  split <;> simp_all

/-- Settles O47. -/
theorem operandWordsReadAtTheirOffsets : Obligations.OperandWordsReadAtTheirOffsets :=
  fun s _ hj => ⟨readWord_slot s .m hj, readWord_slot s .a hj, readWord_slot s .b hj,
    fun i => readWord_slot s (.f i) hj⟩

/-- Settles O51. -/
theorem readsChangeNothingOfTheBlock : Obligations.ReadsChangeNothingOfTheBlock :=
  fun s _ _ h => ⟨_, step_of_access h, rfl, rfl, rfl, rfl, rfl, rfl, fun k => readWord_with_env s _ k⟩

/-! ## STATUS -/

/-- The W1C write of STATUS, bit by bit (R26). -/
theorem writeOneToClear_eq (st : Status) (v : Word) :
    st.writeOneToClear v = { st with
      done := if v.getLsbD 1 then false else st.done, wdrop := if v.getLsbD 3 then false else st.wdrop } := by
  unfold Status.writeOneToClear
  cases v.getLsbD 1 <;> cases v.getLsbD 3 <;> simp

/-- Settles O45. -/
theorem statusReadsItsFieldsAndClearsByWritingOne : Obligations.StatusReadsItsFieldsAndClearsByWritingOne := by
  intro s
  rw [readWord_status]
  obtain ⟨hbusy, hdone, hvalid, hwdrop, hlow, herr, hhigh⟩ := status_bits s.status
  refine ⟨hbusy, hdone, hvalid, hwdrop, hlow, herr, hhigh, fun v => ?_⟩
  rw [writeWord_status, State.acknowledge, writeOneToClear_eq]

/-! ## Writes -/

theorem writeWord_operand_of_idle {s : State} {i : WordIndex} {r : OperandReg} {j : Nat} (v : Word)
    (hidle : s.status.busy = false) (h : locate s.build i = .operand r j) :
    s.writeWord i v = s.withRegs (s.regs.set r (replaceWord (s.regs.get r) j v)) :=
  (writeWord_of_operand v h).trans (writeWhenIdle_of_idle _ hidle)

theorem writeWord_withRegs_of_operand {s : State} {i : WordIndex} {r : OperandReg} {j : Nat} (regs : Regs) (v : Word)
    (hidle : s.status.busy = false) (h : locate s.build i = .operand r j) :
    (s.withRegs regs).writeWord i v = s.withRegs (regs.set r (replaceWord (regs.get r) j v)) :=
  writeWord_operand_of_idle (s := s.withRegs regs) v hidle h

/-- What a write of an operand word leaves of every other word outside STATUS. -/
theorem readWord_after_operand {s : State} {i k : WordIndex} {r : OperandReg} {j : Nat} (v : Word)
    (hi : locate s.build i = .operand r j) (hki : k ≠ i) (hstatus : locate s.build k ≠ .status) :
    (s.withRegs (s.regs.set r (replaceWord (s.regs.get r) j v))).readWord k = s.readWord k := by
  by_cases hk : ∃ j', locate s.build k = .operand r j'
  · obtain ⟨j', hk⟩ := hk
    have hj : j' ≠ j := by
      rintro rfl
      exact hki (locate_inj (hk.trans hi.symm) (by simp [hi]))
    rw [readWord_of_operand hk, readWord_withRegs_of_operand _ hk, get_set_same,
      wordOf_replaceWord_ne _ v hj]
  · refine readWord_congr s _ k rfl rfl hstatus (fun _ => set_pinf _ _ _) fun r' j' hk' => get_set_ne _ _ ?_
    rintro rfl
    exact hk ⟨j', hk'⟩

/-- Settles O49. -/
theorem writtenWordReadsBackAndOthersStay : Obligations.WrittenWordReadsBackAndOthersStay := by
  intro s i v
  refine ⟨fun r j hidle hi => ?back, fun k hki hstatus => ?others⟩
  case back =>
    rw [writeWord_operand_of_idle v hidle hi]
    rw [readWord_withRegs_of_operand _ hi, get_set_same, wordOf_replaceWord_same]
  case others =>
    have hne : ∀ loc, locate s.build i = loc → loc ≠ .reserved → locate s.build k ≠ loc :=
      fun loc hi hres hk => hki (locate_inj (hk.trans hi.symm) (hi ▸ hres))
    rcases writeWord_cases s i v with h | ⟨hi, h⟩ | ⟨-, h⟩ | ⟨-, h⟩ | ⟨-, -, h⟩ | ⟨-, hi, h⟩ | ⟨-, r, j, hi, -, h⟩ <;>
      rw [h]
    · exact readWord_with_ie _ (hne .ctrl hi (by simp))
    · exact readWord_congr s _ k rfl rfl hstatus (fun _ => rfl) fun _ _ _ => rfl
    · exact readWord_congr s _ k rfl rfl hstatus (fun _ => rfl) fun _ _ _ => rfl
    · exact readWord_congr s _ k (accept_build s v) (accept_ie s v) hstatus (fun _ => by rw [accept_regs])
        fun _ _ _ => by rw [accept_regs]
    · refine readWord_congr s _ k rfl rfl hstatus (fun hk => absurd hk (hne .pinf hi (by simp))) fun r _ _ => ?_
      cases r <;> rfl
    · exact readWord_after_operand v hi hki hstatus

theorem acknowledge_acknowledge (s : State) (v : Word) : (s.acknowledge v).acknowledge v = s.acknowledge v := by
  simp [State.acknowledge, Status.writeOneToClear]

/-- Settles O50. -/
theorem repeatedWritesOtherThanCmdChangeNothing : Obligations.RepeatedWritesOtherThanCmdChangeNothing := by
  intro s i v hidle hcmd
  have hfixed : s.writeWord i v = s → (s.writeWord i v).writeWord i v = s.writeWord i v := fun h => by rw [h, h]
  cases hi : locate s.build i with
  | id => exact hfixed (writeWord_of_id v hi)
  | param => exact hfixed (writeWord_of_param v hi)
  | reserved => exact hfixed (writeWord_of_reserved hi v)
  | cmd => exact absurd hi hcmd
  | ctrl => rw [writeWord_of_ctrl v hi]; exact writeWord_of_ctrl v hi
  | status =>
    rw [writeWord_of_status v hi]
    exact (writeWord_of_status (s := s.acknowledge v) v hi).trans (acknowledge_acknowledge s v)
  | pinf =>
    have hwrite : s.writeWord i v = s.withRegs { s.regs with pinf := v.extractLsb' 0 8 } :=
      (writeWord_of_pinf v hi).trans (writeWhenIdle_of_idle _ hidle)
    rw [hwrite]
    exact (writeWord_of_pinf (s := s.withRegs { s.regs with pinf := v.extractLsb' 0 8 }) v hi).trans
      (writeWhenIdle_of_idle _ hidle)
  | operand r j =>
    rw [writeWord_operand_of_idle v hidle hi]
    rw [writeWord_withRegs_of_operand _ v hidle hi, get_set_same, set_set, replaceWord_replaceWord]

/-! ## A register written word by word -/

/-- The value u with its words of the list replaced by those of v, in the order of the list; `foldl_writeWord_slot` says
that the host's writes leave it. -/
def replaceWords (v : Nat) (order : List Nat) (u : Nat) : Nat :=
  order.foldl (fun u j => replaceWord u j (wordOf v j)) u

theorem replaceWords_cons (v j : Nat) (rest : List Nat) (u : Nat) :
    replaceWords v (j :: rest) u = replaceWords v rest (replaceWord u j (wordOf v j)) := List.foldl_cons ..

theorem testBit_replaceWords (v : Nat) (order : List Nat) (u i : Nat) :
    (replaceWords v order u).testBit i = if i / 32 ∈ order then v.testBit i else u.testBit i := by
  induction order generalizing u with
  | nil => simp [replaceWords]
  | cons j rest ih =>
    rw [replaceWords_cons, ih, testBit_replaceWord, wordOf_getLsbD _ _ (Nat.mod_lt _ (by decide))]
    by_cases hrest : i / 32 ∈ rest
    · simp [hrest]
    by_cases hj : i / 32 = j
    · subst hj
      simp [Nat.div_add_mod]
    · simp [hrest, hj]

/-- All the words of a value below 2^(32n) are the value. -/
theorem replaceWords_all {v u n : Nat} {order : List Nat} (hv : v < 2 ^ (32 * n)) (hu : u < 2 ^ (32 * n))
    (horder : order.Perm (List.range n)) : replaceWords v order u = v := by
  apply Nat.eq_of_testBit_eq
  intro i
  have hmem : i / 32 ∈ order ↔ i / 32 < n := horder.mem_iff.trans List.mem_range
  rw [testBit_replaceWords]
  by_cases hi : i / 32 < n
  · rw [if_pos (hmem.mpr hi)]
  · have hpow : 2 ^ (32 * n) ≤ 2 ^ i := Nat.pow_le_pow_right Nat.two_pos (by omega)
    rw [if_neg (hmem.not.mpr hi), Nat.testBit_lt_two_pow (hv.trans_le hpow), Nat.testBit_lt_two_pow (hu.trans_le hpow)]

/-- Word writes to the slot of a register, while idle, replace the register's words one after the other. -/
theorem foldl_writeWord_slot {s : State} (r : OperandReg) (v : Nat) {order : List Nat} (hidle : s.status.busy = false)
    (horder : ∀ j ∈ order, j < s.build.nw) :
    order.foldl (fun t j => t.writeWord (indexOf (slotOffset r + 4 * j)) (wordOf v j)) s =
      s.withRegs (s.regs.set r (replaceWords v order (s.regs.get r))) := by
  induction order generalizing s with
  | nil =>
    rw [List.foldl_nil, replaceWords, List.foldl_nil, set_get, withRegs_self]
  | cons j rest ih =>
    have hj : j < s.build.nw := horder j List.mem_cons_self
    rw [List.foldl_cons, writeWord_operand_of_idle (wordOf v j) hidle (locate_slot_of_lt r hj)]
    have hrest : ∀ k ∈ rest, k < s.build.nw := fun k hk => horder k (List.mem_cons_of_mem j hk)
    rw [ih (s := s.withRegs (s.regs.set r (replaceWord (s.regs.get r) j (wordOf v j)))) hidle hrest, withRegs_regs, get_set_same, set_set, withRegs_withRegs, replaceWords_cons]

/-- Settles O48. -/
theorem registerHoldsItsWordsWhateverTheOrder : Obligations.RegisterHoldsItsWordsWhateverTheOrder := by
  intro s r v order hidle hrange hv horder
  have hnw : ∀ j ∈ order, j < s.build.nw := fun j hj => List.mem_range.mp (horder.mem_iff.mp hj)
  refine (foldl_writeWord_slot r v hidle hnw).trans ?_
  rw [replaceWords_all hv (get_lt hrange r) horder]
  rfl

end Sys2Proof.Machine
end

section
/-! PROOFS. Who changes STATUS (spec/10_state.md R26, R27; spec/60_exceptions.md R180, R183; spec/70_reset_and_hazards.md R215):
over one step the fields change by reset, by what the host's write does to them, and then by a completion; each field's
producers are read off from that. -/

namespace Sys2Proof.Machine

/-! ## What a host access and a clock do to STATUS -/

/-- The next event is a host write of the word v at the index i. -/
def HostWrites (s : State) (i : WordIndex) (v : Word) : Prop :=
  ∃ es, s.env.inputs = .access (.write i v) :: es ∨ s.env.inputs = .accessInClock (.write i v) :: es

/-- STATUS after the host's part of a step from s: as before, W1C, a dropped write, or an acceptance. -/
inductive HostStatus (s : State) : Status → Prop where
  | same : HostStatus s s.status
  | acknowledged (i : WordIndex) (v : Word) (hw : HostWrites s i v) (hi : locate s.build i = .status) :
      HostStatus s (s.status.writeOneToClear v)
  | dropped (i : WordIndex) (v : Word) (hw : HostWrites s i v) (hbusy : s.status.busy = true)
      (hi : locate s.build i = .cmd ∨ locate s.build i = .pinf ∨ ∃ r j, locate s.build i = .operand r j) :
      HostStatus s { s.status with wdrop := true }
  | accepted (i : WordIndex) (v : Word) (hw : HostWrites s i v) (hidle : s.status.busy = false)
      (hi : locate s.build i = .cmd) : HostStatus s s.status.accepted

/-- A write that only an idle engine takes: dropped while busy, and otherwise without effect on STATUS. -/
theorem hostStatus_writeWhenIdle {s u idle : State} {i : WordIndex} {v : Word} (hw : HostWrites s i v)
    (hi : locate s.build i = .cmd ∨ locate s.build i = .pinf ∨ ∃ r j, locate s.build i = .operand r j)
    (hu : u.status = s.status) (hidle : s.status.busy = false → HostStatus s idle.status) :
    HostStatus s (u.writeWhenIdle idle).status := by
  cases hbusy : s.status.busy with
  | false =>
    rw [writeWhenIdle_of_idle _ (hu ▸ hbusy)]
    exact hidle hbusy
  | true =>
    rw [writeWhenIdle_of_busy _ (hu ▸ hbusy), State.dropWrite, hu]
    exact .dropped i v hw hbusy hi

theorem hostStatus_writeWord {s : State} {i : WordIndex} {v : Word} (es : List Input) (hw : HostWrites s i v) :
    HostStatus s ((s.withInputs es).writeWord i v).status := by
  have hbuild : (s.withInputs es).build = s.build := rfl
  cases hi : locate s.build i with
  | id => rw [writeWord_of_id v (hbuild ▸ hi)]; exact .same
  | param => rw [writeWord_of_param v (hbuild ▸ hi)]; exact .same
  | reserved => rw [writeWord_of_reserved (hbuild ▸ hi) v]; exact .same
  | ctrl => rw [writeWord_of_ctrl v (hbuild ▸ hi)]; exact .same
  | status => rw [writeWord_of_status v (hbuild ▸ hi)]; exact .acknowledged i v hw hi
  | cmd =>
    rw [writeWord_of_cmd v (hbuild ▸ hi)]
    refine hostStatus_writeWhenIdle hw (.inl hi) rfl fun hidle => ?_
    rw [accept_status]
    exact .accepted i v hw hidle hi
  | pinf =>
    rw [writeWord_of_pinf v (hbuild ▸ hi)]
    exact hostStatus_writeWhenIdle hw (.inr (.inl hi)) rfl fun _ => .same
  | operand r j =>
    rw [writeWord_of_operand v (hbuild ▸ hi)]
    exact hostStatus_writeWhenIdle hw (.inr (.inr ⟨r, j, hi⟩)) rfl fun _ => .same

theorem hostStatus_hostAccess {s : State} {a : Access} {es : List Input}
    (h : s.env.inputs = .access a :: es ∨ s.env.inputs = .accessInClock a :: es) :
    HostStatus s ((s.withInputs es).hostAccess a).status := by
  cases a with
  | read i => exact .same
  | write i v => exact hostStatus_writeWord es ⟨es, h⟩

/-- From s, whose STATUS the host left as st, to t the latched command completed. -/
structure CompletesIn (s t : State) (st : Status) : Prop where
  busy : t.status.busy = false
  done : t.status.done = true
  wdrop : t.status.wdrop = st.wdrop
  latch : ∃ l, s.latch = some l ∧ l.remaining = 0
  valid : t.status.valid ≠ st.valid →
    ∃ l s1, s.latch = some l ∧ l.remaining = 0 ∧ decode l.word = .ok (.pverify s1) ∧ t.status.err = 0#4

/-- A completion that changes VALID is of a PVERIFY without error (R26, R171). -/
theorem pverify_of_valid_ne {s t : State} {i : Instr} (h : Completes s i t) (hne : t.status.valid ≠ s.status.valid) :
    (∃ s1, i = .pverify s1) ∧ t.status.err = 0#4 := by
  cases h with
  | modmul | modpow | modinv | pdbl | padd | pmul | error => exact absurd rfl hne
  | pverify s1 => exact ⟨⟨s1, rfl⟩, commit_err _ _ _⟩

/-- A clock leaves STATUS, or completes the latched command. -/
theorem status_of_clocks {s t : State} (h : Clocks s t) : t.status = s.status ∨ CompletesIn s t s.status := by
  cases h with
  | idle => exact .inl rfl
  | busy => exact .inl rfl
  | illegal l hl hr => exact .inr ⟨rfl, rfl, rfl, ⟨l, hl, hr⟩, fun hne => absurd rfl hne⟩
  | command l hl hr i hd _ hx hc =>
    have hw := completedWith_of_completes hc
    refine .inr ⟨hw.notBusy, hw.done, hw.wdrop, ⟨l, hl, hr⟩, fun hne => ?_⟩
    obtain ⟨⟨s1, rfl⟩, herr⟩ := pverify_of_valid_ne hc hne
    exact ⟨l, s1, hl, hr, hd, herr⟩

/-- What a step does to STATUS: reset; or the host's part, and then nothing or a completion. -/
theorem status_of_step {s t : State} (hi : s.Inv) (h : step s = .next t) :
    (s.env.inputs.head? = some .reset ∧ t.status = Status.reset) ∨
    ∃ st, HostStatus s st ∧ (t.status = st ∨ CompletesIn s t st) := by
  rcases step_cases h with ⟨-, hc⟩ | ⟨e, es, hin, ha⟩
  · exact .inr ⟨_, .same, status_of_clocks hc⟩
  cases ha with
  | reset => exact .inl ⟨by rw [hin, List.head?_cons], rfl⟩
  | clock _ hc =>
    refine .inr ⟨_, .same, (status_of_clocks hc).imp id fun hdone => ?_⟩
    exact ⟨hdone.busy, hdone.done, hdone.wdrop, hdone.latch, hdone.valid⟩
  | access a => exact .inr ⟨_, hostStatus_hostAccess (.inl hin), .inl rfl⟩
  | accessIdle a => exact .inr ⟨_, hostStatus_hostAccess (.inr hin), .inl rfl⟩
  | accessBusy a l hl _ hc =>
    have hbusy : s.status.busy = true := by rw [hi.busy_iff, show s.latch = some l from hl]; rfl
    obtain ⟨-, hlatch, -⟩ := hostAccess_busy (s.withInputs es) a hbusy
    refine .inr ⟨_, hostStatus_hostAccess (.inr hin), (status_of_clocks hc).imp id fun hdone => ?_⟩
    have hlatch' : ((s.withInputs es).hostAccess a).latch = s.latch := hlatch
    exact ⟨hdone.busy, hdone.done, hdone.wdrop, hlatch' ▸ hdone.latch, fun hne => hlatch' ▸ hdone.valid hne⟩

/-! ## The host's part, field by field -/

section
variable {s : State} {st : Status}

theorem HostStatus.valid (h : HostStatus s st) : st.valid = s.status.valid := by
  cases h <;> rfl

theorem HostStatus.err (h : HostStatus s st) : st.err = s.status.err := by
  cases h <;> rfl

theorem HostStatus.busy_of_busy (h : HostStatus s st) (hbusy : s.status.busy = true) : st.busy = true := by
  cases h with
  | same | acknowledged | dropped => exact hbusy
  | accepted => rfl

theorem HostStatus.sets_busy (h : HostStatus s st) (h0 : s.status.busy = false) (h1 : st.busy = true) :
    ∃ i c, locate s.build i = .cmd ∧ HostWrites s i c := by
  cases h with
  | same | acknowledged | dropped => exact absurd (h0.symm.trans h1) (by decide)
  | accepted i v hw _ hi => exact ⟨i, v, hi, hw⟩

theorem HostStatus.not_done_of_not_done (h : HostStatus s st) (h0 : s.status.done = false) : st.done = false := by
  cases h with
  | same | dropped => exact h0
  | acknowledged i v => simp [Status.writeOneToClear, h0]
  | accepted => rfl

theorem HostStatus.clears_done (h : HostStatus s st) (h1 : s.status.done = true) (h0 : st.done = false) :
    ∃ i v, HostWrites s i v ∧
      (locate s.build i = .cmd ∧ s.status.busy = false ∨ locate s.build i = .status ∧ v.getLsbD 1 = true) := by
  cases h with
  | same | dropped => exact absurd (h1.symm.trans h0) (by decide)
  | acknowledged i v hw hi => exact ⟨i, v, hw, .inr ⟨hi, by simpa [Status.writeOneToClear, h1] using h0⟩⟩
  | accepted i v hw hidle hi => exact ⟨i, v, hw, .inl ⟨hi, hidle⟩⟩

theorem HostStatus.sets_wdrop (h : HostStatus s st) (h0 : s.status.wdrop = false) (h1 : st.wdrop = true) :
    s.status.busy = true ∧ ∃ i v, HostWrites s i v ∧
      (locate s.build i = .cmd ∨ locate s.build i = .pinf ∨ ∃ r j, locate s.build i = .operand r j) := by
  cases h with
  | same | accepted => exact absurd (h0.symm.trans h1) (by decide)
  | acknowledged i v => simp [Status.writeOneToClear, h0] at h1
  | dropped i v hw hbusy hi => exact ⟨hbusy, i, v, hw, hi⟩

theorem HostStatus.clears_wdrop (h : HostStatus s st) (h1 : s.status.wdrop = true) (h0 : st.wdrop = false) :
    ∃ i v, HostWrites s i v ∧ locate s.build i = .status ∧ v.getLsbD 3 = true := by
  cases h with
  | same | accepted => exact absurd (h1.symm.trans h0) (by decide)
  | acknowledged i v hw hi => exact ⟨i, v, hw, hi, by simpa [Status.writeOneToClear, h1] using h0⟩
  | dropped => simp at h0

end

/-- Settles O56. -/
theorem validChangesOnlyByVerifyOrReset : Obligations.ValidChangesOnlyByVerifyOrReset := by
  intro s t hi h hne
  rcases status_of_step hi h with ⟨hreset, -⟩ | ⟨st, hhost, hst | hdone⟩
  · exact .inl hreset
  · exact absurd (by rw [hst, hhost.valid]) hne
  · obtain ⟨l, s1, hl, hr, hd, herr⟩ := hdone.valid (by rwa [hhost.valid])
    exact .inr ⟨l, s1, hl, hr, hd, herr, hdone.done⟩

/-- Settles O57. -/
theorem statusBitsHaveOnlyTheirProducers : Obligations.StatusBitsHaveOnlyTheirProducers := by
  intro s t hi h reset writes completes
  rcases status_of_step hi h with ⟨hreset, ht⟩ | ⟨st, hhost, ht | hdone⟩
  case inl =>
    rw [ht]
    exact ⟨fun _ h1 => by simp [Status.reset] at h1, fun _ _ => .inl hreset, fun _ h1 => by simp [Status.reset] at h1,
      fun _ _ => .inl hreset, fun _ h1 => by simp [Status.reset] at h1, fun _ _ => .inl hreset, fun _ => .inl hreset⟩
  case inr.inl =>
    rw [ht]
    exact ⟨hhost.sets_busy, fun h1 h0 => absurd ((hhost.busy_of_busy h1).symm.trans h0) (by decide),
      fun h0 h1 => absurd ((hhost.not_done_of_not_done h0).symm.trans h1) (by decide),
      fun h1 h0 => .inr (hhost.clears_done h1 h0), hhost.sets_wdrop, fun h1 h0 => .inr (hhost.clears_wdrop h1 h0),
      fun hne => absurd hhost.err hne⟩
  case inr.inr =>
    have hcompletes : completes := ⟨hdone.busy, hdone.done, hdone.latch⟩
    have hbusy : s.status.busy = true := by
      obtain ⟨l, hl, -⟩ := hdone.latch
      rw [hi.busy_iff, hl]
      rfl
    refine ⟨fun _ h1 => absurd (hdone.busy.symm.trans h1) (by decide), fun _ _ => .inr hcompletes,
      fun _ _ => ⟨hbusy, hcompletes⟩, fun _ h0 => absurd (hdone.done.symm.trans h0) (by decide), ?_, ?_,
      fun _ => .inr hcompletes⟩ <;> rw [hdone.wdrop]
    · exact hhost.sets_wdrop
    · exact fun h1 h0 => .inr (hhost.clears_wdrop h1 h0)

end Sys2Proof.Machine
end
